-- ==== Sys2Proof/Word.lean ====
section
/-! DEFINITION. The word type of the codec: the byte of spec/00_scope.md R10. Byte sequences are lists of bytes, counts and
stream offsets are natural numbers (R11). -/

namespace Sys2Proof

/-- R10: "A byte is an 8-bit unsigned value, 0x00 to 0xFF". Bit 7 is the most significant. -/
abbrev Byte := BitVec 8

end Sys2Proof
end

