-- ==== Sys2Proof/Config.lean ====
section
/-! DEFINITION. The implementation parameters of spec/00_scope.md R8: the settled constants, the record of the OPEN parameters,
the configuration the machine is built with (constants without a value), and the test instantiations of R9. -/

namespace Sys2Proof

/-- R8: `MARKER`, the first byte of every frame. Log 13: the literal is unaudited (UNVERIFIED). -/
def marker : Byte := 0xF7

/-- R8: `LEN_MAX`, the largest value of the one-byte length field. -/
def lenMax : Nat := 255

/-- R8: `FRAME_MIN`, the size of a frame with an empty payload. -/
def frameMin : Nat := 4

/-- R8: `FRAME_MAX`, the size of a frame with 255 payload bytes. -/
def frameMax : Nat := 259

/-- R8: `BAUD`, the line rate of the transport. Informational; no rule depends on it (R185). -/
def baud : Nat := 230400

/-- R8: the six CRC parameters, each with any value. Legal ones have a polynomial other than zero (`Config`). -/
structure CrcParams where
  /-- `CRC_POLY`: the coefficients of x^7 down to x^0 in bits 7 down to 0. -/
  poly   : Byte
  /-- `CRC_INIT`. -/
  init   : Byte
  /-- `CRC_REFIN`. -/
  refin  : Bool
  /-- `CRC_REFOUT`. -/
  refout : Bool
  /-- `CRC_XOROUT`. -/
  xorout : Byte
  /-- `CRC_START`: 0 when the CRC covers marker through payload, 1 when it covers address through payload. -/
  start  : Fin 2
  deriving DecidableEq, Repr

/-- A legal configuration. R8 and 93 U3: `CRC_POLY` must not be 0x00, so an illegal configuration cannot be written down. -/
structure Config where
  /-- The six CRC parameters. -/
  crc         : CrcParams
  /-- R8: "byte, must not be 0x00". -/
  polyNonzero : crc.poly ≠ 0
  deriving DecidableEq, Repr

/-- R8, R79, 93 U1 (log 10): `CRC_POLY` less one. Every nonzero byte is the successor of one such value, and no value is chosen. -/
opaque Config.openPolyPred : Fin 255

/-- R8, R79, 93 U1 (log 10): `CRC_INIT`, left open. -/
opaque Config.openInit : Byte

/-- R8, 93 U2 (log 10): `CRC_REFIN`, left open. -/
opaque Config.openRefin : Bool

/-- R8, 93 U2 (log 10): `CRC_REFOUT`, left open. -/
opaque Config.openRefout : Bool

/-- R8, 93 U2 (log 10): `CRC_XOROUT`, left open. -/
opaque Config.openXorout : Byte

/-- R8, 90 C1 (log 10): `CRC_START`, left open. -/
opaque Config.openStart : Fin 2

/-- The nonzero byte that follows `k`. -/
def Config.succByte (k : Fin 255) : Byte := BitVec.ofNat 8 (k.val + 1)

/-- The byte that follows a number below 255 is not zero. -/
theorem Config.succByte_ne_zero (k : Fin 255) : Config.succByte k ≠ 0 := by
  intro h
  have h2 := congrArg BitVec.toNat h
  have hk := k.isLt
  simp [Config.succByte] at h2
  omega

/-- R8: the configuration the block is built with. All of it is open; nothing can be proved of it but that it is legal. -/
def Config.chosen : Config where
  crc := { poly := Config.succByte Config.openPolyPred, init := Config.openInit, refin := Config.openRefin,
           refout := Config.openRefout, xorout := Config.openXorout, start := Config.openStart }
  polyNonzero := Config.succByte_ne_zero _

/-- R33, R171 (log 7): what `buf` holds before the first RESET: unspecified. -/
opaque Config.powerOnBuf : List Byte

/-- R33, R171 (log 7): what `pos` holds before the first RESET: unspecified. -/
opaque Config.powerOnPos : Nat

/-- R33, R171 (log 7): what `gcount` holds before the first RESET: unspecified. -/
opaque Config.powerOnGcount : Nat

/-- R33, R171 (log 7): what `crc_acc` holds before the first RESET: unspecified. -/
opaque Config.powerOnCrc : Byte

/-- R9: `REF`. A test instantiation only, no claim about the peripheral. -/
def CrcParams.ref : CrcParams :=
  { poly := 0x07, init := 0x00, refin := false, refout := false, xorout := 0x00, start := 0 }

/-- R9: `ALT1`, which is `REF` with `CRC_START` = 1. A test instantiation only. -/
def CrcParams.alt1 : CrcParams := { CrcParams.ref with start := 1 }

/-- R9: `MAXIM0`. A test instantiation only. -/
def CrcParams.maxim0 : CrcParams :=
  { poly := 0x31, init := 0x00, refin := true, refout := true, xorout := 0x00, start := 0 }

/-- The legal configuration with the parameters `REF` of R9. -/
def Config.ref : Config := { crc := CrcParams.ref, polyNonzero := by decide }

/-- The legal configuration with the parameters `ALT1` of R9. -/
def Config.alt1 : Config := { crc := CrcParams.alt1, polyNonzero := by decide }

/-- The legal configuration with the parameters `MAXIM0` of R9. -/
def Config.maxim0 : Config := { crc := CrcParams.maxim0, polyNonzero := by decide }

end Sys2Proof
end

