-- ==== Sys2Proof/Syntax.lean ====
section
/-! DEFINITION. The instructions: one constructor per row of spec/opcode_table.json (spec/30_encoding.md R61, R70, R73), with the
operand forms of R71; and the Frame record of R60. -/

namespace Sys2Proof

/-- R60: a Frame record {marker, address, length, payload, checksum}. -/
structure Frame where
  /-- "fixed byte 0xF7" in a valid record. -/
  marker   : Byte
  /-- "byte identifying target device on the bus"; any value (R64). -/
  address  : Byte
  /-- "byte count of payload". -/
  length   : Byte
  /-- "ordered sequence of bytes", transparent (R65). -/
  payload  : List Byte
  /-- The CRC8. -/
  checksum : Byte
  deriving DecidableEq, Repr

/-- R70, R73, R61: the operations of the block, its pseudo-operations, and the wire frame. A byte operand is any byte, a
byte-sequence operand any finite sequence (R71). -/
inductive Instr where
  /-- FRAME (R61): one wire frame arriving on the receive stream. Its marker is `MARKER`. -/
  | frame (address length : Byte) (payload : List Byte) (checksum : Byte)
  /-- RESET (R170). -/
  | reset
  /-- CRC.CLR (R85). -/
  | crcClr
  /-- CRC.UPD b (R86). -/
  | crcUpd (b : Byte)
  /-- CRC.GET (R87). -/
  | crcGet
  /-- CRC.CHK c (R88). -/
  | crcChk (c : Byte)
  /-- TX.ENC address, payload (R100). A payload of any length may be presented; more than 255 bytes are answered with
  PayloadTooLong (R102). -/
  | txEnc (address : Byte) (payload : List Byte)
  /-- RX.BYTE b (R112). -/
  | rxByte (b : Byte)
  /-- RX.FLUSH (R114). -/
  | rxFlush
  /-- RX.RST (R115). -/
  | rxRst
  /-- CRC.BLK s, a pseudo-operation (R89). -/
  | crcBlk (s : List Byte)
  /-- RX.PUSH s, a pseudo-operation (R113). -/
  | rxPush (s : List Byte)
  /-- DECODE s, a pseudo-operation on a scratch decoder (R116). -/
  | decode (s : List Byte)
  deriving DecidableEq, Repr

/-- One operation as the host presents it to the block (R47, R53, R190; log 1). -/
inductive Request where
  /-- An operation as bytes: its select code (R70) and then its operand bytes, or the bytes of a wire frame (R61); log 2. -/
  | coded (bytes : List Byte)
  /-- An operation by name, which is how the source gives operations (R69, R70); the only form a pseudo-operation has (R73); log 3. -/
  | call (op : Instr)
  deriving DecidableEq, Repr

end Sys2Proof
end

