-- ==== Sys2Proof/WellFormed.lean ====
section
/-! DEFINITION. Which instructions are well formed. Only FRAME has a condition (spec/30_encoding.md R60): every byte and every byte
sequence is a legal operand of the others (R71). -/

namespace Sys2Proof

/-- R60: "`payload` is a byte sequence with `|payload| = zext(length)`" (log 18). The checksum byte may be any byte: a wrong one
makes a corrupt frame, which the decoder reports (R68). -/
def frameLengthAgrees (length : Byte) (payload : List Byte) : Bool := payload.length == length.toNat

/-- R71: the operand forms. FRAME needs a payload of the length its length byte says (R60, log 18). -/
def Instr.wellFormed : Instr → Bool
  | .frame _ length payload _ => frameLengthAgrees length payload
  | .reset => true
  | .crcClr => true
  | .crcUpd _ => true
  | .crcGet => true
  | .crcChk _ => true
  | .txEnc _ _ => true
  | .rxByte _ => true
  | .rxFlush => true
  | .rxRst => true
  | .crcBlk _ => true
  | .rxPush _ => true
  | .decode _ => true

end Sys2Proof
end

