-- ==== Sys2Proof/Decode.lean ====
section
/-! DEFINITION. Decoding and encoding of requests, from the encodings of spec/30_encoding.md: the wire frame (R61 to R63) and the
select codes of the operations (R70). The layout of an operation's bytes beyond the select code is the model's (log 2). -/

namespace Sys2Proof

/-- Why a request is turned away before any operation runs. Every one is SAFE: the model stops where the spec gives no operation. -/
inductive Reject where
  /-- A request of no bytes at all. -/
  | noSelect
  /-- R70, 93 U9: the byte is neither `MARKER` nor one of the select codes 0x0 to 0x8. -/
  | noSuchOperation (select : Byte)
  /-- R70, R71: the select code is an operation's, and the operand bytes are too few or too many for it. -/
  | operandCount (select : Byte)
  /-- R61, R63: the bytes begin with `MARKER` and end before the frame does. -/
  | frameCutShort
  /-- R61, R63: bytes follow the end of the frame. -/
  | bytesAfterFrame
  /-- R60: a FRAME called by name whose payload is not of the length its length byte says. -/
  | frameLength
  deriving DecidableEq, Repr

/-! The wire frame. -/

/-- R83: the frame without its checksum byte, `[marker, address, length] ++ payload`. -/
def Frame.body (f : Frame) : List Byte := [f.marker, f.address, f.length] ++ f.payload

/-- R66: `pack(f) = [f.marker, f.address, f.length] ++ f.payload ++ [f.checksum]`. -/
def Frame.pack (f : Frame) : List Byte := f.body ++ [f.checksum]

/-- R62: the size of a frame, `4 + zext(L)`, taken in the natural numbers. -/
def Frame.size (f : Frame) : Nat := 4 + f.length.toNat

/-- R61, R63: the fields of the frame a byte sequence begins with, and the bytes after it; none while the length byte has not come
or fewer than `4 + L` bytes are there. No byte beyond the sequence is ever read (93 U8). -/
def parseFrame? : List Byte → Option (Frame × List Byte)
  | m :: a :: l :: rest =>
    match rest.drop l.toNat with
    | [] => none
    | r :: after => some ({ marker := m, address := a, length := l, payload := rest.take l.toNat, checksum := r }, after)
  | _ => none

/-! Decoding. -/

/-- R61: the bytes of one wire frame, exactly. -/
def decodeFrame (bytes : List Byte) : Except Reject Instr :=
  match parseFrame? bytes with
  | none => .error .frameCutShort
  | some (f, []) => .ok (.frame f.address f.length f.payload f.checksum)
  | some (_, _ :: _) => .error .bytesAfterFrame

/-- R70, R71: the operation that a select code names, with its operand bytes. -/
def decodeOperation (select : Byte) (operands : List Byte) : Except Reject Instr :=
  match select.toNat, operands with
  | 0x0, [] => .ok .reset
  | 0x1, [] => .ok .crcClr
  | 0x2, [b] => .ok (.crcUpd b)
  | 0x3, [] => .ok .crcGet
  | 0x4, [c] => .ok (.crcChk c)
  | 0x5, address :: payload => .ok (.txEnc address payload)
  | 0x6, [b] => .ok (.rxByte b)
  | 0x7, [] => .ok .rxFlush
  | 0x8, [] => .ok .rxRst
  | n, _ => if n ≤ 0x8 then .error (.operandCount select) else .error (.noSuchOperation select)

/-- The instruction that a coded request's bytes stand for: a wire frame where they begin with `MARKER` (R67), else an operation
under its select code (R70). Total; everything else is rejected by name (93 U9). -/
def decodeBytes : List Byte → Except Reject Instr
  | [] => .error .noSelect
  | b :: rest => if b = marker then decodeFrame (b :: rest) else decodeOperation b rest

/-- The instruction a request stands for; an operation called by name must be well formed. -/
def decodeRequest : Request → Except Reject Instr
  | .coded bytes => decodeBytes bytes
  | .call op => if op.wellFormed then .ok op else .error .frameLength

/-! The words of spec/opcode_table.json. -/

/-- The first `n` bytes of a number whose bit 0 is the least significant bit of the first byte. -/
def bytesOfNat : Nat → Nat → List Byte
  | 0, _ => []
  | n + 1, w => BitVec.ofNat 8 w :: bytesOfNat n (w / 256)

/-- R70, R71, R62: how many bytes the shortest request takes that begins with these bytes (log 17). -/
def shortestRequest (bytes : List Byte) : Nat :=
  match bytes with
  | [] => 0
  | b :: rest =>
    if b = marker then
      match rest with
      | _ :: l :: _ => 4 + l.toNat
      | _ => 4
    else
      match b.toNat with
      | 0x2 => 2
      | 0x4 => 2
      | 0x5 => 2
      | 0x6 => 2
      | _ => 1

/-- The bytes of a table word: the word's own bytes, and zero operand bytes up to the end of the shortest such request (log 17). -/
def tableBytes (nbits w : Nat) : List Byte :=
  let own := bytesOfNat ((nbits + 7) / 8) w
  own ++ List.replicate (shortestRequest own - own.length) 0

/-- What the decoder reads from a table row's word. -/
def decodeTableWord (nbits w : Nat) : Option Instr :=
  match decodeBytes (tableBytes nbits w) with
  | .ok i => some i
  | .error _ => none

/-! Encoding. -/

/-- R70: the select code of an operation. A pseudo-operation has none (R73), nor has a wire frame, which begins with `MARKER`. -/
def Instr.selectCode : Instr → Option Byte
  | .frame .. => none
  | .reset => some 0x0
  | .crcClr => some 0x1
  | .crcUpd _ => some 0x2
  | .crcGet => some 0x3
  | .crcChk _ => some 0x4
  | .txEnc .. => some 0x5
  | .rxByte _ => some 0x6
  | .rxFlush => some 0x7
  | .rxRst => some 0x8
  | .crcBlk _ => none
  | .rxPush _ => none
  | .decode _ => none

/-- R70, R61: the bytes of an instruction. A pseudo-operation has none (R73). -/
def encodeBytes : Instr → Option (List Byte)
  | .frame address length payload checksum => some (Frame.pack ⟨marker, address, length, payload, checksum⟩)
  | .reset => some [0x0]
  | .crcClr => some [0x1]
  | .crcUpd b => some [0x2, b]
  | .crcGet => some [0x3]
  | .crcChk c => some [0x4, c]
  | .txEnc address payload => some (0x5 :: address :: payload)
  | .rxByte b => some [0x6, b]
  | .rxFlush => some [0x7]
  | .rxRst => some [0x8]
  | .crcBlk _ => none
  | .rxPush _ => none
  | .decode _ => none

/-- The request for an instruction: its bytes where it has any, else a call by name (R73, log 3). -/
def encodeRequest (i : Instr) : Request :=
  match encodeBytes i with
  | some bytes => .coded bytes
  | none => .call i

end Sys2Proof
end

