-- ==== Sys2Proof/Machine/State.lean ====
section
/-! DEFINITION. The state of the block (spec/10_state.md), what an operation returns (spec/60_exceptions.md), and the reasons the
model can stop. -/

namespace Sys2Proof.Machine

/-- R140 to R145: the five events. An event carries its data by value (R147). -/
inductive Event where
  /-- R141: a complete candidate whose checksum matches. -/
  | frame (offset : Nat) (address length : Byte) (payload : List Byte) (checksum : Byte)
  /-- R143: one maximal run of garbage bytes has ended. -/
  | desync (offset count : Nat)
  /-- R142: a complete candidate whose checksum does not match. -/
  | checksumError (offset : Nat) (address length computed received : Byte)
  /-- R144: the input ended while a candidate was pending; `arrived` is the spec's field `have`. -/
  | truncated (offset arrived : Nat)
  /-- R145: DECODE's operand held no marker. -/
  | noMarker (scanned : Nat)
  deriving DecidableEq, Repr

/-- R70: what an operation returns to the host (the `result` column). -/
inductive Result where
  /-- The operation returns nothing. -/
  | none
  /-- CRC.GET and CRC.BLK return a byte. -/
  | byte (b : Byte)
  /-- CRC.CHK returns a boolean. -/
  | bool (b : Bool)
  /-- TX.ENC returns the bytes of a frame. -/
  | bytes (s : List Byte)
  /-- R146: TX.ENC returns its refusal; the block goes on (log 6). -/
  | payloadTooLong (length : Nat)
  /-- The receive operations and DECODE return an ordered event list. -/
  | events (ev : List Event)
  deriving DecidableEq, Repr

/-- R20: the decoder's registers. DECODE uses one of its own (R116). -/
structure Decoder where
  /-- R21: the reassembly buffer, oldest byte first. -/
  buf    : List Byte
  /-- R23: the stream position, the stream offset of `buf[0]`. -/
  pos    : Nat
  /-- R24: the garbage run length, not yet reported. -/
  gcount : Nat
  deriving DecidableEq, Repr

/-- R33: the decoder after RESET and after RX.RST. -/
def Decoder.empty : Decoder := { buf := [], pos := 0, gcount := 0 }

/-- Why the machine stops in an operation. -/
inductive Fault where
  /-- Raised by FRAME, RX.BYTE, RX.PUSH and RX.FLUSH before the first RESET or RX.RST (R171, 93 U4). SAFE: the spec gives the
  operation no result there. -/
  | decoderUnspecified
  /-- Raised by CRC.UPD, CRC.GET and CRC.CHK before the first RESET or CRC.CLR (R171, 93 U4). SAFE: the spec gives the operation no
  result there. -/
  | crcUnspecified
  deriving DecidableEq, Repr

/-- Why the model turns a step away. -/
inductive Refusal where
  /-- Raised by exec for an instruction without a meaning. SAFE. No instruction is left so. -/
  | notModelled (mnemonic : String)
  /-- Raised by FRAME, RX.BYTE, RX.PUSH and RX.FLUSH in a decoder state that violates INV1 to INV4 (R27, 93 U5: "refuse"). SAFE: no
  run reaches such a state and no rule gives it a meaning. -/
  | illFormedDecoder
  /-- Raised by step for a request that stands for no operation (R70, 93 U9: "refuse"). SAFE. -/
  | badRequest (why : Reject)
  deriving DecidableEq, Repr

/-- The state. `dec` and `crcAcc` are the whole architectural state (R20); `decoderReady` and `crcReady` say whether they hold
specified values (R33, R171); `cfg`, `requests` and `result` are the model's own (log 10, log 1, log 5). -/
structure State where
  /-- R20 to R24: `buf`, `pos`, `gcount`. -/
  dec          : Decoder
  /-- R28: `crc_acc`. -/
  crcAcc       : Byte
  /-- R33, R171 (log 7): `dec` has been written since power was applied. -/
  decoderReady : Bool
  /-- R33, R171 (log 7): `crcAcc` has been written since power was applied. -/
  crcReady     : Bool
  /-- R8, R30 (log 10): the configuration constants, which no operation writes. -/
  cfg          : Config
  /-- R47, R53, R190 (log 1): what the host has presented and the block has not yet performed, oldest first. -/
  requests     : List Request
  /-- R20, R147, R179 (log 5): what the last operation returned. -/
  result       : Result
  deriving DecidableEq, Repr

/-- R33, R170: the block right after RESET, under the configuration it is built with; the host has presented nothing. -/
def State.reset : State :=
  { dec := Decoder.empty, crcAcc := Config.chosen.crc.init, decoderReady := true, crcReady := true, cfg := Config.chosen,
    requests := [], result := .none }

/-- R33, R171 (log 7): the block when power has been applied and RESET has not: no register holds a specified value. -/
def State.powerOn : State :=
  { dec := { buf := Config.powerOnBuf, pos := Config.powerOnPos, gcount := Config.powerOnGcount }, crcAcc := Config.powerOnCrc,
    decoderReady := false, crcReady := false, cfg := Config.chosen, requests := [], result := .none }

end Sys2Proof.Machine
end

