-- ==== Sys2Proof/Machine/Checksum.lean ====
section
/-! DEFINITION. The pure functions of the CRC8 unit (spec/40_crc8.md R80 to R84, R95), for every value of the parameters. The
algorithm is the spec's own from general knowledge (93 G1, G2; log 11). -/

namespace Sys2Proof.Machine

/-- R12: the byte whose bit `i` is bit `7 - i` of `v`. -/
def rev8 (v : Byte) : Byte :=
  ((v &&& 0x01) <<< 7) ||| ((v &&& 0x02) <<< 5) ||| ((v &&& 0x04) <<< 3) ||| ((v &&& 0x08) <<< 1) |||
  ((v &&& 0x10) >>> 1) ||| ((v &&& 0x20) >>> 3) ||| ((v &&& 0x40) >>> 5) ||| ((v &&& 0x80) >>> 7)

/-- R80: one pass of the loop; bit 7 is tested before it is shifted out. -/
def crcShift (poly c : Byte) : Byte := if c.msb then (c <<< 1) ^^^ poly else c <<< 1

/-- R80: `n` passes of the loop. -/
def crcShifts (poly : Byte) : Nat → Byte → Byte
  | 0, c => c
  | n + 1, c => crcShifts poly n (crcShift poly c)

/-- R80: the data byte as it enters the register. -/
def crcInput (p : CrcParams) (b : Byte) : Byte := if p.refin then rev8 b else b

/-- R80: `crc8_step(c, b)`. -/
def crc8Step (p : CrcParams) (c b : Byte) : Byte := crcShifts p.poly 8 (c ^^^ crcInput p b)

/-- R81: `crc8_fin(c)`. -/
def crc8Fin (p : CrcParams) (c : Byte) : Byte := (if p.refout then rev8 c else c) ^^^ p.xorout

/-- R90: `reg(c, s)`, the register after stepping `c` through the bytes of `s` in index order. -/
def crcReg (p : CrcParams) (c : Byte) (s : List Byte) : Byte := s.foldl (crc8Step p) c

/-- R82: `crc8(s)`. -/
def crc8 (p : CrcParams) (s : List Byte) : Byte := crc8Fin p (crcReg p p.init s)

/-- R83: `frame_crc(body) := crc8(body[CRC_START .. |body| - 1])`. -/
def frameCrc (p : CrcParams) (body : List Byte) : Byte := crc8 p (body.drop p.start.val)

/-- R95: the table `T[i]`, the eight-pass loop started from `i`. -/
def crcTable (poly : Byte) : List Byte := (List.range 256).map (fun i => crcShifts poly 8 (BitVec.ofNat 8 i))

end Sys2Proof.Machine
end

