-- ==== Sys2Proof/Machine/Flags.lean ====
section
/-! DEFINITION. The block has no flags (spec/10_state.md R29). This file holds the conditions its operations compute instead: the
checksum verdict (R84), the frame predicates (R60, R66), the decoder's phase (R25), its invariants (R27), and the clean end (R191). -/

namespace Sys2Proof.Machine

/-- R84: `crc_ok(body, r)`, all eight bits compared. -/
def crcOk (p : CrcParams) (body : List Byte) (r : Byte) : Bool := frameCrc p body == r

/-- R60: a valid Frame record. -/
abbrev FrameValid (p : CrcParams) (f : Frame) : Prop :=
  f.marker = marker ∧ f.payload.length = f.length.toNat ∧ f.checksum = frameCrc p f.body

/-- R66: `is_frame(s)`. The third byte is read only where there is one. -/
abbrev IsFrame (p : CrcParams) (s : List Byte) : Prop :=
  4 ≤ s.length ∧ s.head? = some marker ∧ s.length = 4 + (s.getD 2 0).toNat ∧ s.getLast? = some (frameCrc p s.dropLast)

/-- R66: `unpack(s)`, for a sequence of exactly one frame's bytes. -/
def unpack? (s : List Byte) : Option Frame :=
  match parseFrame? s with
  | some (f, []) => some f
  | _ => none

/-- R25: the phases. -/
inductive Phase where
  /-- No candidate. -/
  | hunt
  /-- A marker has been seen; address or length still to come. -/
  | header
  /-- The length is known; payload or checksum still to come. -/
  | body
  deriving DecidableEq, Repr

/-- R25: the phase is a function of `buf`. DESIGN CHOICE (log 20): a buffer that holds a complete candidate violates INV2 and meets
none of R25's conditions; it reads as BODY here. -/
def Decoder.phase (d : Decoder) : Phase :=
  if d.buf.length = 0 then .hunt else if d.buf.length ≤ 2 then .header else .body

/-- R27 INV1: "|buf| = 0 or buf[0] = MARKER". -/
abbrev Decoder.Inv1 (d : Decoder) : Prop := d.buf = [] ∨ d.buf.head? = some marker

/-- R27 INV2: "|buf| < 3 or |buf| < 4 + zext(buf[2])". -/
abbrev Decoder.Inv2 (d : Decoder) : Prop := d.buf.length < 3 ∨ d.buf.length < 4 + (d.buf.getD 2 0).toNat

/-- R27 INV3: "gcount <= pos". -/
abbrev Decoder.Inv3 (d : Decoder) : Prop := d.gcount ≤ d.pos

/-- R27 INV4: "|buf| > 0 implies gcount = 0". -/
abbrev Decoder.Inv4 (d : Decoder) : Prop := d.buf.length > 0 → d.gcount = 0

/-- R27: the well-formedness of a decoder state. -/
abbrev Decoder.Inv (d : Decoder) : Prop := d.Inv1 ∧ d.Inv2 ∧ d.Inv3 ∧ d.Inv4

/-- R191: nothing received is unreported. -/
abbrev Decoder.Clean (d : Decoder) : Prop := d.buf = [] ∧ d.gcount = 0

end Sys2Proof.Machine
end

