-- ==== Sys2Proof/Machine/Ops.lean ====
section
/-! DEFINITION. The named operations over the registers: the primitives of spec/00_scope.md R12 on the decoder, the report of a
garbage run, and the four ways an operation of the block uses the state. Raising an event appends it to the operation's result and
transfers no control (spec/60_exceptions.md R150), so there is no exception entry and no return from one. -/

namespace Sys2Proof.Machine

/-! The decoder's primitives (R12). -/

/-- R12: `append(buf, b)`, the only store to the buffer. -/
def Decoder.append (d : Decoder) (b : Byte) : Decoder := { d with buf := d.buf ++ [b] }

/-- R12: `MemRead(i, n)`, the bytes `buf[i .. i+n-1]`. -/
def Decoder.memRead (d : Decoder) (i n : Nat) : List Byte := (d.buf.drop i).take n

/-- R12: `drop(buf, k)`: the `k` oldest bytes leave, and `pos` advances past them. -/
def Decoder.drop (d : Decoder) (k : Nat) : Decoder := { d with buf := d.buf.drop k, pos := d.pos + k }

/-- R111 step 2: one garbage byte leaves and is counted. -/
def Decoder.discardGarbage (d : Decoder) : Decoder := { d.drop 1 with gcount := d.gcount + 1 }

/-- R111 step 3, R114, R143: the `Desync` that reports the run of garbage before `buf[0]`, if there is one. -/
def Decoder.garbageEvents (d : Decoder) : List Event :=
  if d.gcount > 0 then [.desync (d.pos - d.gcount) d.gcount] else []

/-- R111 step 3, R114: the run has been reported. -/
def Decoder.clearGarbage (d : Decoder) : Decoder := { d with gcount := 0 }

/-! The state. -/

/-- R47, R147: the operation returns `r` to the host. -/
def State.returning (s : State) (r : Result) : State := { s with result := r }

/-- The decoder's registers are written. -/
def State.setDecoder (s : State) (d : Decoder) : State := { s with dec := d, decoderReady := true }

/-- `crc_acc` is written. -/
def State.setCrc (s : State) (c : Byte) : State := { s with crcAcc := c, crcReady := true }

/-- An operation that reads `crc_acc`: it has a meaning only once `crc_acc` holds a specified value (R171, 93 U4). -/
def readingCrc (s : State) (k : Byte → State) : Host.Outcome State Fault Refusal :=
  if s.crcReady then .next (k s.crcAcc) else .fault .crcUnspecified

/-- An operation that reads and writes the decoder and returns its events. It has a meaning only once the decoder's registers hold
specified values (R171, 93 U4) that satisfy INV1 to INV4 (R27, 93 U5). -/
def receiving (s : State) (f : Decoder → Decoder × List Event) : Host.Outcome State Fault Refusal :=
  if s.decoderReady then
    if s.dec.Inv then
      let r := f s.dec
      .next ((s.setDecoder r.1).returning (.events r.2))
    else .refused .illFormedDecoder
  else .fault .decoderUnspecified

end Sys2Proof.Machine
end

