-- ==== Sys2Proof/Machine/Crc.lean ====
section
/-! DEFINITION. The operations of the stand-alone CRC8 unit (spec/40_crc8.md R85 to R89). They use `crc_acc` and nothing else. -/

namespace Sys2Proof.Machine

/-- CRC.CLR (R85): `crc_acc <- CRC_INIT`. -/
def execCrcClr (s : State) : Host.Outcome State Fault Refusal :=
  .next ((s.setCrc s.cfg.crc.init).returning .none)

/-- CRC.UPD b (R86): `crc_acc <- crc8_step(crc_acc, b)`. -/
def execCrcUpd (b : Byte) (s : State) : Host.Outcome State Fault Refusal :=
  readingCrc s (fun acc => (s.setCrc (crc8Step s.cfg.crc acc b)).returning .none)

/-- CRC.GET (R87): returns `crc8_fin(crc_acc)`. -/
def execCrcGet (s : State) : Host.Outcome State Fault Refusal :=
  readingCrc s (fun acc => s.returning (.byte (crc8Fin s.cfg.crc acc)))

/-- CRC.CHK c (R88): returns the boolean `crc8_fin(crc_acc) = c`. -/
def execCrcChk (c : Byte) (s : State) : Host.Outcome State Fault Refusal :=
  readingCrc s (fun acc => s.returning (.bool (crc8Fin s.cfg.crc acc == c)))

/-- CRC.BLK q (R89): CRC.CLR, CRC.UPD of every byte, CRC.GET. It reads no register (R70), so it runs in any state (log 8). -/
def execCrcBlk (q : List Byte) (s : State) : Host.Outcome State Fault Refusal :=
  let reg := crcReg s.cfg.crc s.cfg.crc.init q
  .next ((s.setCrc reg).returning (.byte (crc8Fin s.cfg.crc reg)))

end Sys2Proof.Machine
end

