-- ==== Sys2Proof/Machine/Operands.lean ====
section
/-! DEFINITION. The operand forms (spec/30_encoding.md R71): the payload operand of TX.ENC and its length byte, the frame operand of
FRAME; and the readings of an event (spec/60_exceptions.md R140, R148). -/

namespace Sys2Proof.Machine

/-- R71, R102: the payload fits the one-byte length field. -/
abbrev PayloadFits (payload : List Byte) : Prop := payload.length ≤ lenMax

/-- R100: `L <- |payload|`, one byte where the payload fits. -/
def lengthByte (payload : List Byte) : Byte := BitVec.ofNat 8 payload.length

/-- R100: the bytes of the frame that TX.ENC returns, `body ++ [frame_crc(body)]`. -/
def encodedFrame (p : CrcParams) (address : Byte) (payload : List Byte) : List Byte :=
  let body := [marker, address, lengthByte payload] ++ payload
  body ++ [frameCrc p body]

/-- R61: the bytes of the FRAME operand, marker first. -/
def frameBytes (address length : Byte) (payload : List Byte) (checksum : Byte) : List Byte :=
  Frame.pack { marker := marker, address := address, length := length, payload := payload, checksum := checksum }

/-- R140: the code of an event. The numbers carry no meaning (93 U17). -/
def Event.code : Event → Byte
  | .frame .. => 0x00
  | .desync .. => 0x01
  | .checksumError .. => 0x02
  | .truncated .. => 0x03
  | .noMarker .. => 0x04

/-- R116: the events that are a verdict `V`: Frame, ChecksumError, Truncated. -/
def Event.isVerdict : Event → Bool
  | .frame .. => true
  | .desync .. => false
  | .checksumError .. => true
  | .truncated .. => true
  | .noMarker .. => false

/-- R148: `CorruptFrame` is the union of ChecksumError, Truncated and NoMarker. -/
def Event.isCorruptFrame : Event → Bool
  | .frame .. => false
  | .desync .. => false
  | .checksumError .. => true
  | .truncated .. => true
  | .noMarker .. => true

/-- R141 to R144 and R148: the byte offset of an event; `scanned` for NoMarker. -/
def Event.offset : Event → Nat
  | .frame offset .. => offset
  | .desync offset _ => offset
  | .checksumError offset .. => offset
  | .truncated offset _ => offset
  | .noMarker scanned => scanned

/-- R120: how many received bytes an event accounts for. -/
def Event.accounts : Event → Nat
  | .frame _ _ length _ _ => 4 + length.toNat
  | .desync _ count => count
  | .checksumError .. => 1
  | .truncated _ arrived => arrived
  | .noMarker _ => 0

/-- The events in a result. -/
def Result.eventList : Result → List Event
  | .events ev => ev
  | _ => []

end Sys2Proof.Machine
end

