-- ==== Sys2Proof/Machine/Encoder.lean ====
section
/-! DEFINITION. The encoder (spec/41_encode.md). -/

namespace Sys2Proof.Machine

/-- TX.ENC address, payload (R100): the frame's bytes, or PayloadTooLong with the offending length (R102, R146; log 6). It reads and
writes no register (R103). -/
def execTxEnc (address : Byte) (payload : List Byte) (s : State) : Host.Outcome State Fault Refusal :=
  .next (s.returning
    (if PayloadFits payload then .bytes (encodedFrame s.cfg.crc address payload) else .payloadTooLong payload.length))

end Sys2Proof.Machine
end

