-- ==== Sys2Proof/Machine/Drain.lean ====
section
/-! DEFINITION. The procedures of the decoder (spec/42_decode.md): `drain` (R111), one received byte (R112), a pushed sequence (R113),
the flush (R114), and the one-shot decode on a scratch decoder (R116). -/

namespace Sys2Proof.Machine

/-- R111: what one pass of the loop does. -/
inductive Pass where
  /-- The loop stops with this decoder and these events. -/
  | stop (d : Decoder) (ev : List Event)
  /-- The loop continues with this decoder; these events have been raised. -/
  | again (d : Decoder) (ev : List Event)
  deriving DecidableEq, Repr

/-- R111 steps 6 to 8: the verdict on a complete candidate at the front of `d`. Event fields are evaluated before the drop. -/
def judge (p : CrcParams) (d : Decoder) (f : Frame) : Pass :=
  if crcOk p f.body f.checksum then
    .again (d.drop f.size) [.frame d.pos f.address f.length f.payload f.checksum]
  else
    .again (d.drop 1) [.checksumError d.pos f.address f.length (frameCrc p f.body) f.checksum]

/-- R111 steps 4 to 8: a candidate begins at `buf[0]` and the garbage before it has been reported. -/
def examine (p : CrcParams) (d : Decoder) : Pass :=
  match parseFrame? d.buf with
  | none => .stop d []
  | some (f, _) => judge p d f

/-- Events raised earlier in the same pass. -/
def Pass.after (raised : List Event) : Pass → Pass
  | .stop d ev => .stop d (raised ++ ev)
  | .again d ev => .again d (raised ++ ev)

/-- R111: one pass of the loop. -/
def drainPass (p : CrcParams) (d : Decoder) : Pass :=
  match d.buf with
  | [] => .stop d []
  | m :: _ =>
    if m = marker then (examine p d.clearGarbage).after d.garbageEvents
    else .again d.discardGarbage []

/-- R111: at most `n` passes. -/
def drainLoop (p : CrcParams) : Nat → Decoder → Decoder × List Event
  | 0, d => (d, [])
  | n + 1, d =>
    match drainPass p d with
    | .stop d' ev => (d', ev)
    | .again d' ev =>
      let r := drainLoop p n d'
      (r.1, ev ++ r.2)

/-- R111: `drain`. "every pass that continues removes at least one byte from a finite buffer", so `|buf|` passes are enough (log 16). -/
def drain (p : CrcParams) (d : Decoder) : Decoder × List Event := drainLoop p d.buf.length d

/-- R112: `RX.BYTE b` on a decoder. -/
def Decoder.rxByte (p : CrcParams) (d : Decoder) (b : Byte) : Decoder × List Event := drain p (d.append b)

/-- R113: `RX.PUSH s` on a decoder, the fold of `RX.BYTE` with the results concatenated in order. -/
def Decoder.rxPush (p : CrcParams) (d : Decoder) : List Byte → Decoder × List Event
  | [] => (d, [])
  | b :: s =>
    let first := d.rxByte p b
    let others := Decoder.rxPush p first.1 s
    (others.1, first.2 ++ others.2)

/-- R114: the report of a pending candidate whose input has ended. -/
def Decoder.truncatedEvents (d : Decoder) : List Event :=
  if d.buf.length > 0 then [.truncated d.pos d.buf.length] else []

/-- R114: `RX.FLUSH` on a decoder. The pending bytes leave unexamined and `pos` advances past them. -/
def Decoder.rxFlush (d : Decoder) : Decoder × List Event :=
  (d.clearGarbage.drop d.buf.length, d.garbageEvents ++ d.truncatedEvents)

/-- R116: "the prefix of E up to and including the first such event" of kind Frame, ChecksumError or Truncated, if there is one. -/
def cutAfterVerdict : List Event → Option (List Event)
  | [] => none
  | e :: rest => if e.isVerdict then some [e] else (cutAfterVerdict rest).map (fun kept => e :: kept)

/-- R116: everything the scratch decoder reports, `E <- RX.PUSH(s) ++ RX.FLUSH()`. -/
def scratchEvents (p : CrcParams) (s : List Byte) : List Event :=
  let pushed := Decoder.empty.rxPush p s
  pushed.2 ++ pushed.1.rxFlush.2

/-- R116: `DECODE s`. -/
def decodeOnce (p : CrcParams) (s : List Byte) : List Event :=
  match cutAfterVerdict (scratchEvents p s) with
  | some kept => kept
  | none => scratchEvents p s ++ [.noMarker s.length]

end Sys2Proof.Machine
end

