-- ==== Sys2Proof/Machine/Receive.lean ====
section
/-! DEFINITION. The receive operations (spec/42_decode.md R112 to R116) and the wire frame (spec/30_encoding.md R61). -/

namespace Sys2Proof.Machine

/-- RX.BYTE b (R112). -/
def execRxByte (b : Byte) (s : State) : Host.Outcome State Fault Refusal :=
  receiving s (fun d => d.rxByte s.cfg.crc b)

/-- RX.PUSH q (R113). -/
def execRxPush (q : List Byte) (s : State) : Host.Outcome State Fault Refusal :=
  receiving s (fun d => d.rxPush s.cfg.crc q)

/-- RX.FLUSH (R114). -/
def execRxFlush (s : State) : Host.Outcome State Fault Refusal :=
  receiving s Decoder.rxFlush

/-- RX.RST (R115): only the decoder's registers are written, and nothing is reported. -/
def execRxRst (s : State) : Host.Outcome State Fault Refusal :=
  .next ((s.setDecoder Decoder.empty).returning .none)

/-- DECODE q (R116): on a scratch decoder; no register is read or written. -/
def execDecode (q : List Byte) (s : State) : Host.Outcome State Fault Refusal :=
  .next (s.returning (.events (decodeOnce s.cfg.crc q)))

/-- FRAME (R61, R67): the bytes of one wire frame arrive on the receive stream, marker first (R43), as RX.PUSH would give them to the
decoder (log 4). -/
def execFrame (address length : Byte) (payload : List Byte) (checksum : Byte) (s : State) : Host.Outcome State Fault Refusal :=
  receiving s (fun d => d.rxPush s.cfg.crc (frameBytes address length payload checksum))

end Sys2Proof.Machine
end

