-- ==== Sys2Proof/Machine/Reset.lean ====
section
/-! DEFINITION. RESET (spec/70_reset_and_hazards.md R170). -/

namespace Sys2Proof.Machine

/-- RESET (R170): the decoder as after RX.RST, `crc_acc` as after CRC.CLR; legal in any state, the one before the first RESET too. -/
def execReset (s : State) : Host.Outcome State Fault Refusal :=
  .next (((s.setDecoder Decoder.empty).setCrc s.cfg.crc.init).returning .none)

end Sys2Proof.Machine
end

