-- ==== Sys2Proof/Machine/Dispatch.lean ====
section
/-! DEFINITION. One arm per instruction. -/

namespace Sys2Proof.Machine

def exec (i : Instr) (s : State) : Host.Outcome State Fault Refusal :=
  match i with
  | .frame address length payload checksum => Sys2Proof.Machine.execFrame address length payload checksum s
  | .reset => Sys2Proof.Machine.execReset s
  | .crcClr => Sys2Proof.Machine.execCrcClr s
  | .crcUpd b => Sys2Proof.Machine.execCrcUpd b s
  | .crcGet => Sys2Proof.Machine.execCrcGet s
  | .crcChk c => Sys2Proof.Machine.execCrcChk c s
  | .txEnc address payload => Sys2Proof.Machine.execTxEnc address payload s
  | .rxByte b => Sys2Proof.Machine.execRxByte b s
  | .rxFlush => Sys2Proof.Machine.execRxFlush s
  | .rxRst => Sys2Proof.Machine.execRxRst s
  | .crcBlk q => Sys2Proof.Machine.execCrcBlk q s
  | .rxPush q => Sys2Proof.Machine.execRxPush q s
  | .decode q => Sys2Proof.Machine.execDecode q s

end Sys2Proof.Machine
end

