-- ==== Sys2Proof/Machine/Fetch.lean ====
section
/-! DEFINITION. Taking the next operation from the host (spec/20_memory.md R47, R53; log 1). The block fetches no instructions from a
memory; an operation arrives as a request. -/

namespace Sys2Proof.Machine

/-- R47 (log 1): the oldest request, and the state without it. -/
def State.takeRequest (s : State) : Option (Request × State) :=
  match s.requests with
  | [] => none
  | r :: rest => some (r, { s with requests := rest })

/-- The host presents a request that the block takes next (log 1). -/
def State.present (s : State) (r : Request) : State := { s with requests := r :: s.requests }

end Sys2Proof.Machine
end

