-- ==== Sys2Proof/Machine/Step.lean ====
section
/-! DEFINITION. One step: the block performs the oldest operation its host has presented (spec/20_memory.md R47; log 1, log 14). -/

namespace Sys2Proof.Machine

/-- R47, R53: the oldest request is taken and its operation runs. With nothing presented nothing happens ("The block never steps on
its own"; log 14). A request that stands for no operation is refused by name (93 U9). -/
def step (s : State) : Host.Outcome State Fault Refusal :=
  match s.takeRequest with
  | none => .next s
  | some (r, s') =>
    match decodeRequest r with
    | .ok i => exec i s'
    | .error why => .refused (.badRequest why)

/-- The host presents the instruction of a table word next, all operand bytes beyond the word zero (log 1, log 17). -/
def State.withFetchWord (s : State) (nbits w : Nat) : State := s.present (.coded (tableBytes nbits w))

end Sys2Proof.Machine
end

