-- ==== Sys2Proof/Safety.lean ====
section
/-! DEFINITION. The terms claims are made in: the invariant of a state (spec/10_state.md R27), runs of operations
(spec/70_reset_and_hazards.md R191), and the sums of the accounting law (spec/42_decode.md R120). -/

namespace Sys2Proof.Machine

/-- R27: where the decoder's registers hold specified values, INV1 to INV4 hold. -/
abbrev State.Inv (s : State) : Prop := s.decoderReady = true → s.dec.Inv

/-- R33, R171: every register holds a specified value, and the decoder's satisfy INV1 to INV4. -/
abbrev State.Operational (s : State) : Prop := s.decoderReady = true ∧ s.crcReady = true ∧ s.dec.Inv

/-- R191: a run of operations in the host's order: the state after the last and the results in order; none where one stops. -/
def runOps : List Instr → State → Option (State × List Result)
  | [], s => some (s, [])
  | i :: rest, s =>
    match exec i s with
    | .next t => (runOps rest t).map (fun r => (r.1, t.result :: r.2))
    | _ => none

/-- R191: the run's state has nothing received unreported. -/
abbrev State.EndsClean (s : State) : Prop := s.dec.Clean

/-- R120: the operations that receive bytes or end the input. -/
def receives : Instr → Bool
  | .frame .. => true
  | .rxByte _ => true
  | .rxPush _ => true
  | .rxFlush => true
  | _ => false

/-- R120: the bytes an operation gives to the decoder. -/
def receivedBytes : Instr → List Byte
  | .frame address length payload checksum => frameBytes address length payload checksum
  | .rxByte b => [b]
  | .rxPush q => q
  | _ => []

/-- R120: `N`, the number of bytes received in a run. -/
def bytesReceived (ops : List Instr) : Nat := (ops.map (fun i => (receivedBytes i).length)).sum

/-- All events a run returned, in order. -/
def eventsOf (results : List Result) : List Event := results.flatMap Result.eventList

/-- R120: the bytes that a list of events accounts for. -/
def accounted (ev : List Event) : Nat := (ev.map Event.accounts).sum

/-- R121: the `Frame` events that back-to-back frames give, the first beginning at stream offset `k`. -/
def frameEventsAt : Nat → List (List Byte) → List Event
  | _, [] => []
  | k, s :: rest =>
    match unpack? s with
    | some f => .frame k f.address f.length f.payload f.checksum :: frameEventsAt (k + s.length) rest
    | none => frameEventsAt (k + s.length) rest

/-- R116: the bytes of `q` before its first marker, or all of `q`. -/
def leadingGarbage (q : List Byte) : List Byte := q.takeWhile (fun b => b != marker)

/-- R116: the verdict on the bytes `c` that begin with the first marker, which stands at index `k`; `NoMarker` where there is none. -/
def firstVerdict (p : CrcParams) (k : Nat) (c : List Byte) : Event :=
  if c = [] then .noMarker k
  else
    match parseFrame? c with
    | none => .truncated k c.length
    | some (f, _) =>
      if frameCrc p f.body = f.checksum then .frame k f.address f.length f.payload f.checksum
      else .checksumError k f.address f.length (frameCrc p f.body) f.checksum

/-- R116 read without the scratch decoder: "`DECODE` judges the first marker in `s` and nothing after it". -/
def oneShotReport (p : CrcParams) (q : List Byte) : List Event :=
  let k := (leadingGarbage q).length
  (if k > 0 then [.desync 0 k] else []) ++ [firstVerdict p k (q.drop k)]

/-- R93, R126: `s` with bit `k` of byte `i` inverted. -/
def flipBit (s : List Byte) (i k : Nat) : List Byte := s.set i (s.getD i 0 ^^^ (1#8 <<< k))

/-- R51: what an outcome shows of the receive path and of the operation's result, or how it stopped. -/
def receiveView : Host.Outcome State Fault Refusal → Option (Decoder × Result) × Option Fault × Option Refusal
  | .next t => (some (t.dec, t.result), none, none)
  | .fault f => (none, some f, none)
  | .refused r => (none, none, some r)

end Sys2Proof.Machine
end

