-- ==== Sys2Proof/Certificates/Slice0/Obligations.lean ====
section
/-! DEFINITION. The statements for the provers. Each docstring names the rule of spec/ it formalises, or says what of it is the
model's choice and in which log entry. -/

open Sys2Proof Sys2Proof.Machine

/-! Reset and the state before it. -/

/-- R170: RESET, in any state, the one before the first RESET too. The constants, what the host has presented, and nothing else stay. -/
def Obligations.ResetClearsDecoderAndLoadsCrcInit : Prop :=
  Instr.selectCode .reset = some 0x0 ∧
  ∀ s : State,
    exec .reset s = .next { s with dec := { buf := [], pos := 0, gcount := 0 }, crcAcc := s.cfg.crc.init,
                                   decoderReady := true, crcReady := true, result := .none } ∧
    Decoder.phase { buf := [], pos := 0, gcount := 0 } = .hunt ∧
    Decoder.Inv { buf := [], pos := 0, gcount := 0 }

/-- R33 and the last row of 95 section 3.9: RESET brings the power-on state to the model's `State.reset`, which holds R33's values.
That the host's list is empty and the last result is none in it are the model's choices (log 1, log 5), and that it carries the
configuration (log 10). -/
def Obligations.PowerOnThenResetIsStateReset : Prop :=
  exec .reset State.powerOn = .next State.reset ∧ State.reset.dec = { buf := [], pos := 0, gcount := 0 } ∧
  State.reset.crcAcc = State.reset.cfg.crc.init

/-- R27: INV1 to INV4 hold after RESET, in the model's `State.reset`; every register holds a specified value there. -/
def Obligations.StateResetMeetsInvariants : Prop :=
  State.reset.Inv ∧ State.reset.Operational

/-- R171: before the first RESET an operation that reads a register has no meaning, those that read none are defined, and after RX.RST
and CRC.CLR both the state equals the state after RESET. That the former fault, where R171 lets a model fault or refuse, is the model's
choice (log 7); that RX.PUSH of nothing faults with them is its deduction from 93 U4 (log 8). What CRC.BLK and FRAME do there stands in
CrcBlkEqualsItsExpansion and FrameArrivesAsItsBytes. -/
def Obligations.OnlyReadersStopBeforeFirstReset : Prop :=
  (∀ s : State, s.decoderReady = false →
    (∀ b, exec (.rxByte b) s = .fault .decoderUnspecified) ∧ (∀ q, exec (.rxPush q) s = .fault .decoderUnspecified) ∧
    exec .rxFlush s = .fault .decoderUnspecified) ∧
  (∀ s : State, s.crcReady = false →
    (∀ b, exec (.crcUpd b) s = .fault .crcUnspecified) ∧ exec .crcGet s = .fault .crcUnspecified ∧
    (∀ c, exec (.crcChk c) s = .fault .crcUnspecified)) ∧
  (∀ s : State, (∃ t, exec .reset s = .next t) ∧ (∃ t, exec .rxRst s = .next t) ∧ (∃ t, exec .crcClr s = .next t) ∧
    (∀ a q, ∃ t, exec (.txEnc a q) s = .next t) ∧ (∀ q, ∃ t, exec (.decode q) s = .next t)) ∧
  (∀ s t u v : State, exec .rxRst s = .next t → exec .crcClr t = .next u → exec .reset s = .next v → u = v)

/-! The stand-alone CRC unit. -/

/-- R85: CRC.CLR, in any state; two in a row are the same as one. -/
def Obligations.CrcClrLoadsInit : Prop :=
  Instr.selectCode .crcClr = some 0x1 ∧
  ∀ s : State,
    exec .crcClr s = .next { s with crcAcc := s.cfg.crc.init, crcReady := true, result := .none } ∧
    exec .crcClr { s with crcAcc := s.cfg.crc.init, crcReady := true, result := .none } =
      .next { s with crcAcc := s.cfg.crc.init, crcReady := true, result := .none }

/-- R86: CRC.UPD steps the register; a zero byte keeps a zero register under every parameter setting, and under REF keeps FD and no
third value. -/
def Obligations.CrcUpdStepsRegister : Prop :=
  (∀ b : Byte, Instr.selectCode (.crcUpd b) = some 0x2) ∧
  (∀ (b : Byte) (s : State), s.crcReady = true →
    exec (.crcUpd b) s = .next { s with crcAcc := crc8Step s.cfg.crc s.crcAcc b, result := .none }) ∧
  (∀ p : CrcParams, crc8Step p 0 0 = 0) ∧
  (∀ c : Byte, crc8Step CrcParams.ref c 0 = c ↔ c = 0 ∨ c = 0xFD) ∧
  crc8Step CrcParams.ref 0x00 0xF7 = 0xCB ∧ crc8Step CrcParams.ref 0xCB 0x01 = 0x78 ∧ crc8Step CrcParams.ref 0x78 0x00 = 0x6F

/-- R87: CRC.GET returns the finalised register and changes no register; directly after CRC.CLR it returns `crc8([])`. -/
def Obligations.CrcGetReturnsFinalisedRegister : Prop :=
  Instr.selectCode .crcGet = some 0x3 ∧
  ∀ s : State, s.crcReady = true →
    exec .crcGet s = .next { s with result := .byte (crc8Fin s.cfg.crc s.crcAcc) } ∧
    (∀ t, exec .crcClr s = .next t → exec .crcGet t = .next { t with result := .byte (crc8 s.cfg.crc []) })

/-- R88: CRC.CHK returns whether the finalised register equals the operand, and changes no register. -/
def Obligations.CrcChkComparesFinalisedRegister : Prop :=
  (∀ c : Byte, Instr.selectCode (.crcChk c) = some 0x4) ∧
  ∀ (c : Byte) (s : State), s.crcReady = true →
    exec (.crcChk c) s = .next { s with result := .bool (decide (crc8Fin s.cfg.crc s.crcAcc = c)) }

/-- R89: CRC.BLK returns `crc8(s)`, leaves the un-finalised register, and does what its expansion does. That it runs before the first
RESET too is the model's deduction from R70 and its expansion (log 8). -/
def Obligations.CrcBlkEqualsItsExpansion : Prop :=
  (∀ q : List Byte, Instr.selectCode (.crcBlk q) = none) ∧
  ∀ (q : List Byte) (s : State),
    exec (.crcBlk q) s = .next { s with crcAcc := crcReg s.cfg.crc s.cfg.crc.init q, crcReady := true,
                                        result := .byte (crc8 s.cfg.crc q) } ∧
    ∃ t rs, runOps (.crcClr :: (q.map .crcUpd ++ [.crcGet])) s = some (t, rs) ∧ exec (.crcBlk q) s = .next t

/-- R28: only CRC.CLR, CRC.UPD, CRC.BLK and RESET write `crc_acc`, and the encoder and the decoder do not read it. -/
def Obligations.OnlyCrcOperationsTouchAccumulator : Prop :=
  (∀ (i : Instr) (s t : State), exec i s = .next t → (t.crcAcc ≠ s.crcAcc ∨ t.crcReady ≠ s.crcReady) →
    i = .crcClr ∨ (∃ b, i = .crcUpd b) ∨ (∃ q, i = .crcBlk q) ∨ i = .reset) ∧
  (∀ (i : Instr) (s : State) (c : Byte), i ≠ .crcGet → (∀ b, i ≠ .crcUpd b) → (∀ b, i ≠ .crcChk b) →
    receiveView (exec i { s with crcAcc := c }) = receiveView (exec i s))

/-! The CRC functions. -/

/-- R91: the two byte ranges describe one family of codecs, and the other direction needs an odd polynomial. -/
def Obligations.CrcStartIsAbsorbedByInit : Prop :=
  (∀ p p1 : CrcParams, p.start = 0 → p1 = { p with start := 1, init := crc8Step p p.init marker } →
    (∀ body : List Byte, body.head? = some marker → frameCrc p body = frameCrc p1 body) ∧
    (∀ a q, encodedFrame p a q = encodedFrame p1 a q) ∧
    (∀ (d : Decoder) (q : List Byte), d.rxPush p q = d.rxPush p1 q)) ∧
  (∀ p : CrcParams, Function.Bijective (fun c => crc8Step p c marker) ↔ p.poly.getLsbD 0 = true) ∧
  crc8Step CrcParams.ref 0x00 0xF7 = 0xCB

/-- R92: the step is linear, and so is the register over sequences of equal length. -/
def Obligations.CrcStepIsLinear : Prop :=
  (∀ (p : CrcParams) (c1 c2 b1 b2 : Byte),
    crc8Step p (c1 ^^^ c2) (b1 ^^^ b2) = crc8Step p c1 b1 ^^^ crc8Step p c2 b2) ∧
  (∀ (p : CrcParams) (c : Byte) (s t : List Byte), s.length = t.length →
    crcReg p c s ^^^ crcReg p c t = crcReg p 0 (List.zipWith (fun a b => a ^^^ b) s t))

/-- R93: a polynomial other than zero detects every inversion of one bit, in any sequence, and in the address, payload or checksum of a
frame; the zero polynomial detects none. -/
def Obligations.CrcDetectsEverySingleBit : Prop :=
  (∀ (p : CrcParams) (s : List Byte) (i k : Nat), p.poly ≠ 0 → i < s.length → k < 8 → crc8 p (flipBit s i k) ≠ crc8 p s) ∧
  (∀ (p : CrcParams) (f : Frame) (i k : Nat), p.poly ≠ 0 → FrameValid p f → (i = 1 ∨ 3 ≤ i) → i < f.pack.length → k < 8 →
    crcOk p (flipBit f.pack i k).dropLast ((flipBit f.pack i k).getLastD 0) = false) ∧
  (∀ (p : CrcParams) (s : List Byte), p.poly = 0 → s ≠ [] → crc8 p s = crc8Fin p 0)

/-- R94: running the register on through the correct checksum leaves zero where nothing is xored out and the reflections agree, and in
general not otherwise. -/
def Obligations.CrcResidueIsZero : Prop :=
  (∀ (p : CrcParams) (s : List Byte), p.xorout = 0 → p.refin = p.refout → crcReg p p.init (s ++ [crc8 p s]) = 0) ∧
  (∀ r : Bool, ∃ (p : CrcParams) (s : List Byte), p.xorout = 0 ∧ p.refin = r ∧ p.refout = !r ∧
    crcReg p p.init (s ++ [crc8 p s]) ≠ 0) ∧
  (∀ r1 r2 : Bool, ∃ (p : CrcParams) (s : List Byte), p.xorout ≠ 0 ∧ p.refin = r1 ∧ p.refout = r2 ∧
    crcReg p p.init (s ++ [crc8 p s]) ≠ 0)

/-- R95: the table-driven step equals the bit-wise one, for every parameter setting. -/
def Obligations.TableDrivenStepEqualsBitwise : Prop :=
  (∀ (p : CrcParams) (c b : Byte), (crcTable p.poly)[(c ^^^ (if p.refin then rev8 b else b)).toNat]? = some (crc8Step p c b)) ∧
  (∀ (p : CrcParams) (i : Byte), p.refin = false → (crcTable p.poly)[i.toNat]? = some (crc8Step p 0 i))

/-! Frames and the encoder. -/

/-- R66: `pack` and `unpack` are inverse bijections between valid Frame records and sequences satisfying `is_frame`. -/
def Obligations.PackAndUnpackAreInverse : Prop :=
  ∀ p : CrcParams,
    (∀ f : Frame, FrameValid p f → IsFrame p f.pack ∧ unpack? f.pack = some f) ∧
    (∀ s : List Byte, IsFrame p s → ∃ f, unpack? s = some f ∧ FrameValid p f ∧ f.pack = s)

/-- R100: TX.ENC with a payload that fits returns a frame, field by field, and touches no register. -/
def Obligations.TxEncReturnsTheFrame : Prop :=
  (∀ (a : Byte) (q : List Byte), Instr.selectCode (.txEnc a q) = some 0x5) ∧
  ∀ (a : Byte) (q : List Byte) (s : State), q.length ≤ 255 →
    ∃ w : List Byte, exec (.txEnc a q) s = .next { s with result := .bytes w } ∧
      w.length = 4 + q.length ∧ w[0]? = some marker ∧ w[1]? = some a ∧ w[2]? = some (BitVec.ofNat 8 q.length) ∧
      (∀ i, i < q.length → w[3 + i]? = q[i]?) ∧
      w[3 + q.length]? = some (frameCrc s.cfg.crc (w.take (3 + q.length))) ∧ IsFrame s.cfg.crc w

/-- R102: a payload of more than 255 bytes is answered with PayloadTooLong and its length; no bytes, no register changed. That the
answer is a result after which the block goes on is log 6. -/
def Obligations.TxEncRefusesLongPayload : Prop :=
  ∀ (a : Byte) (q : List Byte) (s : State), 255 < q.length →
    exec (.txEnc a q) s = .next { s with result := .payloadTooLong q.length }

/-- R103: TX.ENC is a pure function of its operands and the configuration; it reads and writes no state. -/
def Obligations.TxEncDependsOnOperandsOnly : Prop :=
  ∀ (a : Byte) (q : List Byte) (s s' : State), s.cfg = s'.cfg →
    ∃ r, exec (.txEnc a q) s = .next { s with result := r } ∧ exec (.txEnc a q) s' = .next { s' with result := r }

/-- R104: different (address, payload) pairs never share a wire image. -/
def Obligations.TxEncIsInjective : Prop :=
  ∀ (a a' : Byte) (q q' w : List Byte) (s s' : State),
    exec (.txEnc a q) s = .next { s with result := .bytes w } →
    exec (.txEnc a' q') s' = .next { s' with result := .bytes w } → a = a' ∧ q = q'

/-- R105: decoding what TX.ENC returns gives the frame back, in one shot and from an empty buffer at any stream position, after any
counted garbage; and not in general from a pending candidate. -/
def Obligations.EncodeThenDecodeRoundTrip : Prop :=
  (∀ (a : Byte) (q : List Byte) (s : State), q.length ≤ 255 →
    ∃ (w : List Byte) (c : Byte), exec (.txEnc a q) s = .next { s with result := .bytes w } ∧ w[3 + q.length]? = some c ∧
      exec (.decode w) s = .next { s with result := .events [.frame 0 a (BitVec.ofNat 8 q.length) q c] } ∧
      (s.decoderReady = true → s.dec.Inv → s.dec.buf = [] →
        exec (.rxPush w) s = .next { s with
          dec := { buf := [], pos := s.dec.pos + 4 + q.length, gcount := 0 },
          result := .events ((if s.dec.gcount > 0 then [.desync (s.dec.pos - s.dec.gcount) s.dec.gcount] else []) ++
            [.frame s.dec.pos a (BitVec.ofNat 8 q.length) q c]) })) ∧
  (∃ (d : Decoder) (a : Byte) (q : List Byte), d.Inv ∧ d.buf ≠ [] ∧ q.length ≤ 255 ∧
    (d.rxPush CrcParams.ref (encodedFrame CrcParams.ref a q)).2 = [])

/-! The decoder. -/

/-- R111: the loop, step by step as the rule writes it: `drain` runs its passes until it stops, with no bound on them. -/
def Obligations.DrainFollowsTheEightSteps : Prop :=
  ∀ (p : CrcParams) (d : Decoder),
    drain p d =
      if d.buf.length = 0 then (d, [])
      else if d.buf.head? ≠ some marker then
        drain p { buf := d.buf.drop 1, pos := d.pos + 1, gcount := d.gcount + 1 }
      else
        let garbage : List Event := if d.gcount > 0 then [.desync (d.pos - d.gcount) d.gcount] else []
        let d0 : Decoder := { d with gcount := 0 }
        if d.buf.length < 3 then (d0, garbage)
        else
          let n := 4 + (d.buf.getD 2 0).toNat
          if d.buf.length < n then (d0, garbage)
          else
            let body := d.memRead 0 (n - 1)
            let r := d.buf.getD (n - 1) 0
            let c := frameCrc p body
            if c = r then
              let rest := drain p { buf := d.buf.drop n, pos := d.pos + n, gcount := 0 }
              (rest.1, garbage ++ [.frame d.pos (d.buf.getD 1 0) (d.buf.getD 2 0) (d.memRead 3 (n - 4)) r] ++ rest.2)
            else
              let rest := drain p { buf := d.buf.drop 1, pos := d.pos + 1, gcount := 0 }
              (rest.1, garbage ++ [.checksumError d.pos (d.buf.getD 1 0) (d.buf.getD 2 0) c r] ++ rest.2)

/-- R112: RX.BYTE appends and drains; it raises Desync, Frame and ChecksumError, never Truncated or NoMarker. -/
def Obligations.RxByteAppendsThenDrains : Prop :=
  (∀ b : Byte, Instr.selectCode (.rxByte b) = some 0x6) ∧
  ∀ (b : Byte) (s : State), s.decoderReady = true → s.dec.Inv →
    exec (.rxByte b) s = .next { s with dec := (drain s.cfg.crc { s.dec with buf := s.dec.buf ++ [b] }).1,
                                        result := .events (drain s.cfg.crc { s.dec with buf := s.dec.buf ++ [b] }).2 } ∧
    ∀ e ∈ (drain s.cfg.crc { s.dec with buf := s.dec.buf ++ [b] }).2, (∀ o n, e ≠ .truncated o n) ∧ (∀ n, e ≠ .noMarker n)

/-- R117: the table of transitions of RX.BYTE, row by row, and that RX.FLUSH and RX.RST lead to HUNT from every phase. -/
def Obligations.RxByteTransitionTable : Prop :=
  ∀ s : State, s.decoderReady = true → s.dec.Inv →
    (∀ b, s.dec.buf = [] → b ≠ marker →
      exec (.rxByte b) s = .next { s with dec := { buf := [], pos := s.dec.pos + 1, gcount := s.dec.gcount + 1 },
                                          result := .events [] }) ∧
    (s.dec.buf = [] →
      exec (.rxByte marker) s = .next { s with
        dec := { buf := [marker], pos := s.dec.pos, gcount := 0 },
        result := .events (if s.dec.gcount > 0 then [.desync (s.dec.pos - s.dec.gcount) s.dec.gcount] else []) }) ∧
    (∀ b, 1 ≤ s.dec.buf.length → s.dec.buf.length ≤ 2 →
      exec (.rxByte b) s = .next { s with dec := { s.dec with buf := s.dec.buf ++ [b] }, result := .events [] }) ∧
    (∀ b a L pl, s.dec.buf = marker :: a :: L :: pl → s.dec.buf.length + 1 < 4 + L.toNat →
      exec (.rxByte b) s = .next { s with dec := { s.dec with buf := s.dec.buf ++ [b] }, result := .events [] }) ∧
    (∀ b a L pl, s.dec.buf = marker :: a :: L :: pl → s.dec.buf.length + 1 = 4 + L.toNat → frameCrc s.cfg.crc s.dec.buf = b →
      exec (.rxByte b) s = .next { s with dec := { buf := [], pos := s.dec.pos + (4 + L.toNat), gcount := 0 },
                                          result := .events [.frame s.dec.pos a L pl b] }) ∧
    (∀ b a L pl, s.dec.buf = marker :: a :: L :: pl → s.dec.buf.length + 1 = 4 + L.toNat → frameCrc s.cfg.crc s.dec.buf ≠ b →
      ∃ d ev, drain s.cfg.crc { buf := (s.dec.buf ++ [b]).drop 1, pos := s.dec.pos + 1, gcount := 0 } = (d, ev) ∧
        s.dec.pos + 1 ≤ d.pos ∧
        exec (.rxByte b) s = .next { s with
          dec := d,
          result := .events (.checksumError s.dec.pos a L (frameCrc s.cfg.crc s.dec.buf) b :: ev) }) ∧
    (∃ t, exec .rxFlush s = .next t ∧ t.dec.phase = .hunt) ∧ (∃ t, exec .rxRst s = .next t ∧ t.dec.phase = .hunt)

/-- R118: the buffer never holds more than 259 bytes, 258 between operations; where the drain stops; and INV1, INV2, INV4 are kept, and
INV3. -/
def Obligations.BufferNeverOverflows : Prop :=
  (∀ (p : CrcParams) (d : Decoder) (b : Byte), d.Inv1 → d.Inv2 → d.Inv4 →
    d.buf.length ≤ 258 ∧ (d.append b).buf.length ≤ 259 ∧
    (d.rxByte p b).1.Inv1 ∧ (d.rxByte p b).1.Inv2 ∧ (d.rxByte p b).1.Inv4 ∧ (d.Inv3 → (d.rxByte p b).1.Inv3)) ∧
  (∀ (p : CrcParams) (d d' : Decoder) (ev : List Event), drainPass p d = .again d' ev → d'.buf.length < d.buf.length) ∧
  (∀ (p : CrcParams) (d : Decoder),
    (drain p d).1.buf.length = 0 ∨
    ((drain p d).1.buf.head? = some marker ∧ (drain p d).1.buf.length < 3 ∧ (drain p d).1.gcount = 0) ∨
    ((drain p d).1.buf.head? = some marker ∧ 3 ≤ (drain p d).1.buf.length ∧
      (drain p d).1.buf.length < 4 + ((drain p d).1.buf.getD 2 0).toNat ∧ 4 + ((drain p d).1.buf.getD 2 0).toNat ≤ 259 ∧
      (drain p d).1.gcount = 0))

/-- R119: after a mismatch only the marker leaves and the rest is examined again; a corrupt frame with no marker after its first byte
gives ChecksumError at once and one Desync of its other 3 + L bytes when the next marker arrives or on RX.FLUSH. -/
def Obligations.ResyncDiscardsOnlyTheMarker : Prop :=
  (∀ (p : CrcParams) (d : Decoder) (f : Frame) (rest : List Byte), d.gcount = 0 → f.marker = marker →
    f.payload.length = f.length.toNat → f.checksum ≠ frameCrc p f.body → d.buf = f.pack ++ rest →
    drain p d = ((drain p { buf := d.buf.drop 1, pos := d.pos + 1, gcount := 0 }).1,
      .checksumError d.pos f.address f.length (frameCrc p f.body) f.checksum ::
        (drain p { buf := d.buf.drop 1, pos := d.pos + 1, gcount := 0 }).2)) ∧
  (∀ (s : State) (f : Frame), s.decoderReady = true → s.dec.Inv → s.dec.buf = [] → s.dec.gcount = 0 → f.marker = marker →
    f.payload.length = f.length.toNat → f.checksum ≠ frameCrc s.cfg.crc f.body → marker ∉ f.pack.drop 1 →
    ∃ t, exec (.rxPush f.pack) s = .next t ∧
      t = { s with dec := { buf := [], pos := s.dec.pos + f.pack.length, gcount := 3 + f.length.toNat },
                   result := .events [.checksumError s.dec.pos f.address f.length (frameCrc s.cfg.crc f.body) f.checksum] } ∧
      (∃ u, exec (.rxByte marker) t = .next u ∧ u.result = .events [.desync (s.dec.pos + 1) (3 + f.length.toNat)]) ∧
      (∃ u, exec .rxFlush t = .next u ∧ u.result = .events [.desync (s.dec.pos + 1) (3 + f.length.toNat)]))

/-- R113: RX.PUSH does what its expansion into RX.BYTE does, results concatenated; RX.PUSH of nothing changes nothing; pushing in two
pieces gives the same combined events and the same end state. -/
def Obligations.RxPushIsTheFoldOfRxByte : Prop :=
  (∀ q : List Byte, Instr.selectCode (.rxPush q) = none) ∧
  ∀ s : State, s.decoderReady = true → s.dec.Inv →
    (∀ q : List Byte, ∃ t rs, runOps (q.map .rxByte) s = some (t, rs) ∧
      exec (.rxPush q) s = .next { t with result := .events (eventsOf rs) }) ∧
    exec (.rxPush []) s = .next { s with result := .events [] } ∧
    (∀ q r : List Byte, ∃ t u, exec (.rxPush q) s = .next t ∧ exec (.rxPush r) t = .next u ∧
      exec (.rxPush (q ++ r)) s = .next { u with result := .events (t.result.eventList ++ u.result.eventList) })

/-- R122: however a sequence is cut into pieces, empty ones too, pushing the pieces gives the events and the end state of pushing it
whole. -/
def Obligations.FragmentationDoesNotMatter : Prop :=
  ∀ s : State, s.decoderReady = true → s.dec.Inv → ∀ pieces : List (List Byte),
    ∃ t rs, runOps (pieces.map .rxPush) s = some (t, rs) ∧
      exec (.rxPush pieces.flatten) s = .next { t with result := .events (eventsOf rs) }

/-- R114: RX.FLUSH reports the garbage run or the pending candidate, never both, discards the candidate, and keeps `pos` counting; in
the clean state it changes nothing. -/
def Obligations.RxFlushReportsAndDiscards : Prop :=
  Instr.selectCode .rxFlush = some 0x7 ∧
  ∀ s : State, s.decoderReady = true → s.dec.Inv →
    exec .rxFlush s = .next { s with
      dec := { buf := [], pos := s.dec.pos + s.dec.buf.length, gcount := 0 },
      result := .events (if s.dec.gcount > 0 then [.desync (s.dec.pos - s.dec.gcount) s.dec.gcount]
        else if s.dec.buf.length > 0 then [.truncated s.dec.pos s.dec.buf.length] else []) } ∧
    (s.dec.Clean → exec .rxFlush s = .next { s with result := .events [] })

/-- R115: RX.RST clears the decoder silently, in any state, and leaves `crc_acc`. -/
def Obligations.RxRstClearsDecoderOnly : Prop :=
  Instr.selectCode .rxRst = some 0x8 ∧
  ∀ s : State, exec .rxRst s =
    .next { s with dec := { buf := [], pos := 0, gcount := 0 }, decoderReady := true, result := .none }

/-- R116: DECODE reads and writes no register. Its result is what a scratch decoder reports for RX.PUSH then RX.FLUSH, up to the first
verdict, or all of it and NoMarker; and that judges the first marker of the operand and nothing after it: an optional Desync for the
bytes before the marker, then the verdict on the candidate there, or NoMarker. -/
def Obligations.DecodeJudgesTheFirstMarkerOnly : Prop :=
  ∀ (q : List Byte) (s : State),
    Instr.selectCode (.decode q) = none ∧
    exec (.decode q) s = .next { s with result := .events (oneShotReport s.cfg.crc q) } ∧
    ((∃ pre v post, scratchEvents s.cfg.crc q = pre ++ v :: post ∧ v.isVerdict = true ∧ (∀ e ∈ pre, e.isVerdict = false) ∧
        oneShotReport s.cfg.crc q = pre ++ [v]) ∨
      ((∀ e ∈ scratchEvents s.cfg.crc q, e.isVerdict = false) ∧
        oneShotReport s.cfg.crc q = scratchEvents s.cfg.crc q ++ [.noMarker q.length])) ∧
    scratchEvents s.cfg.crc q = (Decoder.rxPush s.cfg.crc { buf := [], pos := 0, gcount := 0 } q).2 ++
      (Decoder.rxPush s.cfg.crc { buf := [], pos := 0, gcount := 0 } q).1.rxFlush.2

/-- R121: back-to-back frames, pushed from a clean empty buffer, give exactly their Frame events at their offsets. -/
def Obligations.ConcatenatedFramesAllDecode : Prop :=
  ∀ (s : State) (ss : List (List Byte)), s.decoderReady = true → s.dec.buf = [] → s.dec.gcount = 0 →
    (∀ w ∈ ss, IsFrame s.cfg.crc w) →
    exec (.rxPush ss.flatten) s = .next { s with dec := { buf := [], pos := s.dec.pos + ss.flatten.length, gcount := 0 },
                                                 result := .events (frameEventsAt s.dec.pos ss) } ∧
    (frameEventsAt s.dec.pos ss).length = ss.length

/-- R123: where DECODE ends in a Frame or ChecksumError, streaming from reset begins with the same events; where it ends in Truncated
or NoMarker, streaming reports at most a Desync and every byte is pending, counted or in that Desync. -/
def Obligations.OneShotAgreesWithStreaming : Prop :=
  ∀ (p : CrcParams) (q : List Byte),
    (∀ pre o a l pl c, decodeOnce p q = pre ++ [.frame o a l pl c] →
      (decodeOnce p q).IsPrefix (Decoder.empty.rxPush p q).2) ∧
    (∀ pre o a l c r, decodeOnce p q = pre ++ [.checksumError o a l c r] →
      (decodeOnce p q).IsPrefix (Decoder.empty.rxPush p q).2) ∧
    (∀ pre, ((∃ o n, decodeOnce p q = pre ++ [.truncated o n]) ∨ (∃ n, decodeOnce p q = pre ++ [.noMarker n])) →
      ((Decoder.empty.rxPush p q).2 = [] ∨ ∃ o n, (Decoder.empty.rxPush p q).2 = [.desync o n]) ∧
      accounted (Decoder.empty.rxPush p q).2 + (Decoder.empty.rxPush p q).1.gcount +
        (Decoder.empty.rxPush p q).1.buf.length = q.length)

/-- R124: a sequence with no marker, pushed on an empty buffer, is counted and not reported, however it was fragmented; the whole run is
reported as one Desync when a marker arrives or on RX.FLUSH. -/
def Obligations.GarbageIsCountedUntilReported : Prop :=
  ∀ (s : State) (g : List Byte), s.decoderReady = true → s.dec.Inv → s.dec.buf = [] → marker ∉ g →
    ∃ t, exec (.rxPush g) s = .next t ∧
      t = { s with dec := { buf := [], pos := s.dec.pos + g.length, gcount := s.dec.gcount + g.length }, result := .events [] } ∧
      (∀ pieces : List (List Byte), pieces.flatten = g →
        ∃ t' rs, runOps (pieces.map .rxPush) s = some (t', rs) ∧ eventsOf rs = [] ∧ t'.dec = t.dec) ∧
      (0 < s.dec.gcount + g.length →
        (∃ u, exec (.rxByte marker) t = .next u ∧
          u.result = .events [.desync (s.dec.pos - s.dec.gcount) (s.dec.gcount + g.length)]) ∧
        (∃ u, exec .rxFlush t = .next u ∧
          u.result = .events [.desync (s.dec.pos - s.dec.gcount) (s.dec.gcount + g.length)]))

/-- R125: while a candidate is pending no byte value restarts the search: bytes that do not complete it are only stored. Operations
other than the receive operations, RX.RST and RESET leave it pending. A pending candidate cannot outlast 258 further bytes. -/
def Obligations.PendingCandidateTakesEveryByte : Prop :=
  ∀ (s : State) (q : List Byte), s.decoderReady = true → s.dec.Inv → s.dec.buf ≠ [] →
    (((s.dec.buf ++ q).length < 3 ∨ (s.dec.buf ++ q).length < 4 + ((s.dec.buf ++ q).getD 2 0).toNat) →
      exec (.rxPush q) s = .next { s with dec := { s.dec with buf := s.dec.buf ++ q }, result := .events [] }) ∧
    (∀ (i : Instr) (t : State), receives i = false → i ≠ .rxRst → i ≠ .reset → exec i s = .next t → t.dec = s.dec) ∧
    (258 ≤ q.length → ∃ t ev, exec (.rxPush q) s = .next t ∧ t.result = .events ev ∧ ev ≠ [])

/-- R120: every received byte is in exactly one place, after any sequence of receive operations since RX.RST or RESET. That FRAME is one
of them and counts as its bytes is the model's choice (log 4). -/
def Obligations.EveryReceivedByteIsAccountedOnce : Prop :=
  ∀ (s t : State) (ops : List Instr) (rs : List Result), s.decoderReady = true →
    s.dec = { buf := [], pos := 0, gcount := 0 } → (∀ i ∈ ops, receives i = true) → runOps ops s = some (t, rs) →
    bytesReceived ops = t.dec.pos + t.dec.buf.length ∧ t.dec.pos = accounted (eventsOf rs) + t.dec.gcount

/-- R49: the offsets of the events of a run of receive operations are strictly increasing in the order raised. That FRAME is one of them
is the model's choice (log 4). -/
def Obligations.EventOffsetsStrictlyIncrease : Prop :=
  ∀ (s t : State) (ops : List Instr) (rs : List Result), s.decoderReady = true → s.dec.Inv →
    (∀ i ∈ ops, receives i = true) → runOps ops s = some (t, rs) →
    ((eventsOf rs).map Event.offset).Pairwise (fun a b => a < b)

/-- R141 to R145: what the fields of an event satisfy, whichever operation raised it; that FRAME raises any is log 4. -/
def Obligations.EventFieldsAreSound : Prop :=
  ∀ (i : Instr) (s t : State) (ev : List Event), exec i s = .next t → t.result = .events ev → ∀ e ∈ ev,
    match e with
    | .frame _ a l pl c => pl.length = l.toNat ∧ c = frameCrc s.cfg.crc ([marker, a, l] ++ pl)
    | .desync _ n => 1 ≤ n
    | .checksumError _ _ _ c r => c ≠ r
    | .truncated _ n => 1 ≤ n ∧ n ≤ 258
    | .noMarker n => ∃ q : List Byte, i = .decode q ∧ q.length = n ∧ marker ∉ q

/-- R140: which operation can produce which outcome; FRAME stands with RX.PUSH by the model's choice (log 4). -/
def Obligations.EachOperationRaisesOnlyItsEvents : Prop :=
  ∀ (i : Instr) (s t : State), exec i s = .next t →
    (∀ n, t.result = .payloadTooLong n → ∃ a q, i = .txEnc a q) ∧
    (∀ e ∈ t.result.eventList,
      (e.code = 0x00 → (∃ b, i = .rxByte b) ∨ (∃ q, i = .rxPush q) ∨ (∃ q, i = .decode q) ∨ (∃ a l q c, i = .frame a l q c)) ∧
      (e.code = 0x01 → (∃ b, i = .rxByte b) ∨ (∃ q, i = .rxPush q) ∨ i = .rxFlush ∨ (∃ q, i = .decode q) ∨
        (∃ a l q c, i = .frame a l q c)) ∧
      (e.code = 0x02 → (∃ b, i = .rxByte b) ∨ (∃ q, i = .rxPush q) ∨ (∃ q, i = .decode q) ∨ (∃ a l q c, i = .frame a l q c)) ∧
      (e.code = 0x03 → i = .rxFlush ∨ (∃ q, i = .decode q)) ∧
      (e.code = 0x04 → (∃ q, i = .decode q)))

/-- R126 (a): one inverted bit in the address, a payload byte or the checksum makes DECODE report exactly one ChecksumError at 0. -/
def Obligations.OneBitErrorOutsideHeaderIsCaught : Prop :=
  ∀ (s : State) (a : Byte) (q : List Byte) (i k : Nat), q.length ≤ 255 → (i = 1 ∨ 3 ≤ i) → i < 4 + q.length → k < 8 →
    ∃ a' l c r, exec (.decode (flipBit (encodedFrame s.cfg.crc a q) i k)) s =
      .next { s with result := .events [.checksumError 0 a' l c r] }

/-- R126 (b): one inverted bit in the length byte. A longer length gives Truncated in one shot and silence in streaming; a shorter one
is judged on the payload byte that stands in the checksum's place; under REF a wrong frame can be accepted. -/
def Obligations.LengthBitErrorIsNotAlwaysCaught : Prop :=
  (∀ (s : State) (a : Byte) (q w : List Byte) (k L' : Nat), q.length ≤ 255 → k < 8 →
    w = flipBit (encodedFrame s.cfg.crc a q) 2 k → L' = (w.getD 2 0).toNat →
    L' ≠ q.length ∧
    (q.length < L' →
      exec (.decode w) s = .next { s with result := .events [.truncated 0 (4 + q.length)] } ∧
      (Decoder.empty.rxPush s.cfg.crc w).2 = []) ∧
    (L' < q.length →
      (frameCrc s.cfg.crc (w.take (3 + L')) = w.getD (3 + L') 0 →
        ∃ l pl c, exec (.decode w) s = .next { s with result := .events [.frame 0 a l pl c] }) ∧
      (frameCrc s.cfg.crc (w.take (3 + L')) ≠ w.getD (3 + L') 0 →
        ∃ l c r, exec (.decode w) s = .next { s with result := .events [.checksumError 0 a l c r] }))) ∧
  encodedFrame CrcParams.ref 0x01 [0x00, 0x1F, 0x55] = [0xF7, 0x01, 0x03, 0x00, 0x1F, 0x55, 0x80] ∧
  decodeOnce CrcParams.ref [0xF7, 0x01, 0x01, 0x00, 0x1F, 0x55, 0x80] = [.frame 0 0x01 0x01 [0x00] 0x1F]

/-- R126 (c): one inverted bit in the marker. With no later marker DECODE reports Desync and NoMarker; otherwise the verdict of the
candidate at the first later marker. -/
def Obligations.MarkerBitErrorLosesTheFrame : Prop :=
  ∀ (s : State) (a : Byte) (q w : List Byte) (k : Nat), q.length ≤ 255 → k < 8 → w = flipBit (encodedFrame s.cfg.crc a q) 0 k →
    (marker ∉ w.drop 1 → exec (.decode w) s = .next { s with result := .events [.desync 0 w.length, .noMarker w.length] }) ∧
    (∀ j, 1 ≤ j → w[j]? = some marker → marker ∉ w.take j →
      exec (.decode w) s = .next { s with result := .events [.desync 0 j, firstVerdict s.cfg.crc j (w.drop j)] })

/-- R61, R67: the FRAME row. That a wire frame acts as its bytes pushed on the receive stream is the model's choice (log 4). A valid
frame on a clean empty buffer is delivered, a corrupt one is reported. Before the decoder's registers hold specified values (R171) it
faults: that the model faults rather than refuses is its choice (log 7), and that FRAME stops there too its deduction (log 8). -/
def Obligations.FrameArrivesAsItsBytes : Prop :=
  ∀ (a l c : Byte) (q : List Byte) (s : State),
    (s.decoderReady = false → exec (.frame a l q c) s = .fault .decoderUnspecified) ∧
    (s.decoderReady = true → s.dec.Inv →
      (∃ t, exec (.rxPush ([marker, a, l] ++ q ++ [c])) s = .next t ∧ exec (.frame a l q c) s = .next t) ∧
      (s.dec.Clean → q.length = l.toNat → c = frameCrc s.cfg.crc ([marker, a, l] ++ q) →
        exec (.frame a l q c) s = .next { s with dec := { buf := [], pos := s.dec.pos + (4 + l.toNat), gcount := 0 },
                                                 result := .events [.frame s.dec.pos a l q c] }) ∧
      (s.dec.Clean → q.length = l.toNat → c ≠ frameCrc s.cfg.crc ([marker, a, l] ++ q) →
        ∃ t ev, exec (.frame a l q c) s = .next t ∧
          t.result = .events (.checksumError s.dec.pos a l (frameCrc s.cfg.crc ([marker, a, l] ++ q)) c :: ev)))

/-! The whole machine. -/

/-- R27: INV1 to INV4 hold after RESET and RX.RST, and after every operation and every step that starts where they hold; and then a
buffer between operations holds at most 258 bytes. -/
def Obligations.EveryStepKeepsInvariants : Prop :=
  (∀ s t : State, exec .reset s = .next t → t.dec.Inv) ∧
  (∀ s t : State, exec .rxRst s = .next t → t.dec.Inv) ∧
  (∀ (i : Instr) (s t : State), s.Inv → exec i s = .next t → t.Inv) ∧
  (∀ s t : State, s.Inv → step s = .next t → t.Inv) ∧
  (∀ d : Decoder, d.Inv → d.buf.length ≤ 258)

/-- R27, 93 U5: in a decoder state that violates INV1 to INV4 the receive operations are refused; the operations that write the decoder
whole still run. That the state is representable and refused is the model's choice among those the rule allows (log 9); that FRAME is a
receive operation is log 4. -/
def Obligations.IllFormedDecoderIsRefused : Prop :=
  ∀ s : State, s.decoderReady = true → ¬ s.dec.Inv →
    (∀ i, receives i = true → exec i s = .refused .illFormedDecoder) ∧
    (∃ t, exec .rxRst s = .next t ∧ t.dec.Inv) ∧ (∃ t, exec .reset s = .next t ∧ t.dec.Inv)

/-- R30: no operation and no step changes the configuration constants; nor does an operation change what the host has presented. -/
def Obligations.ConfigurationNeverChanges : Prop :=
  (∀ (i : Instr) (s t : State), exec i s = .next t → t.cfg = s.cfg ∧ t.requests = s.requests) ∧
  (∀ s t : State, step s = .next t → t.cfg = s.cfg ∧ t.requests = s.requests.drop 1)

/-- R23: `pos` only moves forward, but for RX.RST and RESET, and the decoder's registers are written only by the receive operations,
RX.RST and RESET. -/
def Obligations.PositionOnlyMovesForward : Prop :=
  ∀ (i : Instr) (s t : State), exec i s = .next t → i ≠ .rxRst → i ≠ .reset →
    s.dec.pos ≤ t.dec.pos ∧ (receives i = false → t.dec = s.dec ∧ t.decoderReady = s.decoderReady)

/-- R12, R21, R23: what a receive operation leaves in `buf` is the end of what `buf` held and what arrived, and `pos` has moved past
the rest. That FRAME is one of them, and that exactly its bytes arrive, is the model's choice (log 4). -/
def Obligations.BufferIsTheUnconsumedTail : Prop :=
  ∀ (i : Instr) (s t : State), receives i = true → exec i s = .next t →
    t.dec.buf.IsSuffix (s.dec.buf ++ receivedBytes i) ∧
    t.dec.pos + t.dec.buf.length = s.dec.pos + s.dec.buf.length + (receivedBytes i).length

/-- R51: the transmit path and the receive path share no state: TX.ENC and the CRC operations leave the decoder, and what a receive
operation or DECODE does depends on the decoder and the configuration alone. That FRAME is a receive operation is log 4. -/
def Obligations.ReceivePathIsIndependent : Prop :=
  ∀ (i : Instr) (s s' : State), (receives i = true ∨ (∃ q, i = .decode q)) →
    s.dec = s'.dec → s.decoderReady = s'.decoderReady → s.cfg = s'.cfg →
    receiveView (exec i s) = receiveView (exec i s')

/-- R48: TX.ENC, CRC.GET, CRC.CHK and DECODE change no register and repeat their result. -/
def Obligations.ReadOnlyOperationsAreIdempotent : Prop :=
  ∀ (i : Instr) (s t : State), ((∃ a q, i = .txEnc a q) ∨ i = .crcGet ∨ (∃ c, i = .crcChk c) ∨ (∃ q, i = .decode q)) →
    exec i s = .next t → t = { s with result := t.result } ∧ exec i t = .next t

/-- R47, R70: in a state whose registers hold specified, well-formed values every operation runs, and changes nothing but the decoder,
`crc_acc` and the result it returns. -/
def Obligations.EveryOperationCompletes : Prop :=
  ∀ (i : Instr) (s : State), s.Operational →
    ∃ d c r, exec i s = .next { s with dec := d, crcAcc := c, result := r }

/-- R191: the block never halts: whatever operations the host chooses, a run that starts with RESET completes, from any state, with one
result for each operation. -/
def Obligations.RunFromResetNeverStops : Prop :=
  ∀ (ops : List Instr) (s : State),
    ∃ t rs, runOps (.reset :: ops) s = some (t, rs) ∧ rs.length = ops.length + 1 ∧ t.Operational

/-- R191: a run that ends in RX.FLUSH ends clean. -/
def Obligations.RunEndingInFlushEndsClean : Prop :=
  ∀ (ops : List Instr) (s t : State) (rs : List Result), runOps (ops ++ [.rxFlush]) s = some (t, rs) → t.EndsClean

/-! Requests. -/

/-- R61, R70, R73: decoding the request of a well-formed instruction gives it back, with every operand; the layout of an operation's
bytes beyond its select code is the model's (log 2, log 3). -/
def Obligations.DecodeEncodeRoundTrip : Prop :=
  ∀ i : Instr, i.wellFormed = true → decodeRequest (encodeRequest i) = .ok i

/-- R61, R70: each byte sequence stands for at most one instruction: what decodes is well formed and encodes to the same bytes (the
layout is the model's, log 2). -/
def Obligations.DecodedBytesEncodeBack : Prop :=
  ∀ (bytes : List Byte) (i : Instr), decodeBytes bytes = .ok i → i.wellFormed = true ∧ encodeBytes i = some bytes

/-- R61, R70 and 95 section 4: words written out from the encodings. -/
def Obligations.WrittenOutWordsDecode : Prop :=
  decodeBytes [0x00] = .ok .reset ∧ decodeBytes [0x02, 0xF7] = .ok (.crcUpd 0xF7) ∧
  decodeBytes [0x05, 0x10, 0x01, 0x02, 0x03] = .ok (.txEnc 0x10 [0x01, 0x02, 0x03]) ∧
  decodeBytes [0x06, 0xF7] = .ok (.rxByte 0xF7) ∧
  decodeBytes [0xF7, 0x01, 0x00, 0x6F] = .ok (.frame 0x01 0x00 [] 0x6F)

/-- R70, 93 U9: select codes 0x9 to 0xF select no operation; the model refuses them, and every other byte that is neither the marker
nor a select code (log 2). -/
def Obligations.UnassignedSelectIsRefused : Prop :=
  ∀ (b : Byte) (operands : List Byte) (rest : List Request) (s : State), b ≠ marker → 8 < b.toNat →
    s.requests = .coded (b :: operands) :: rest → step s = .refused (.badRequest (.noSuchOperation b))

/-- R47, R53: a step performs the oldest operation the host has presented, on the state without that request (log 1); a request that
stands for no operation is refused (log 2). -/
def Obligations.StepRunsTheOldestRequest : Prop :=
  ∀ (s : State) (r : Request) (rest : List Request), s.requests = r :: rest →
    (∀ i, decodeRequest r = .ok i → step s = exec i { s with requests := rest }) ∧
    (∀ why, decodeRequest r = .error why → step s = .refused (.badRequest why))

/-- R47: "The block never steps on its own"; that a step with nothing presented leaves the state is the model's choice (log 14). -/
def Obligations.NothingPresentedNothingHappens : Prop :=
  ∀ s : State, s.requests = [] → step s = .next s

/-! One receive operation. -/

/-- R49, R120, as a step: from every state that meets the invariant, a receive operation keeps it, `pos + |buf|` grows by the bytes
received, `pos - gcount` by the bytes its events account for, and the offsets of its events strictly increase from at least the old
`pos - gcount` to below the new. That FRAME is a receive operation and counts as its bytes is the model's choice (log 4). -/
def Obligations.EachReceiveOperationAccountsForItsBytes : Prop :=
  ∀ (i : Instr) (s t : State), s.Inv → receives i = true → exec i s = .next t →
    t.Inv ∧
    t.dec.pos + t.dec.buf.length = s.dec.pos + s.dec.buf.length + (receivedBytes i).length ∧
    t.dec.pos - t.dec.gcount = s.dec.pos - s.dec.gcount + accounted t.result.eventList ∧
    (t.result.eventList.map Event.offset).Pairwise (fun a b => a < b) ∧
    (∀ e ∈ t.result.eventList, s.dec.pos - s.dec.gcount ≤ e.offset ∧ e.offset < t.dec.pos - t.dec.gcount)
end

