-- ==== Sys2Proof/Laws/Checksum.lean ====
section
/-! SUPPORT. The CRC8 functions: what the register does on pieces, and that one pass of the loop is linear. -/

namespace Sys2Proof.Machine

@[simp] theorem crcReg_nil (p : CrcParams) (c : Byte) : crcReg p c [] = c := rfl

@[simp] theorem crcReg_cons (p : CrcParams) (c b : Byte) (s : List Byte) :
    crcReg p c (b :: s) = crcReg p (crc8Step p c b) s := rfl

/-- R90: `reg(c, s ++ t) = reg(reg(c, s), t)`. -/
theorem crcReg_append (p : CrcParams) (c : Byte) (s t : List Byte) : crcReg p c (s ++ t) = crcReg p (crcReg p c s) t := by
  simp [crcReg, List.foldl_append]

/-- R82: `crc8([]) = crc8_fin(CRC_INIT)`. -/
theorem crc8_nil (p : CrcParams) : crc8 p [] = crc8Fin p p.init := rfl

/-- R12: bit `i` of `rev8 v` is bit `7 - i` of `v`. -/
theorem rev8_getLsbD (v : Byte) (i : Fin 8) : (rev8 v).getLsbD i.val = v.getLsbD (7 - i.val) := by
  revert v i; decide

/-- Reversing twice gives the byte back. -/
theorem rev8_rev8 (v : Byte) : rev8 (rev8 v) = v := by
  revert v; decide

/-- Reversing is linear. -/
theorem rev8_xor (a b : Byte) : rev8 (a ^^^ b) = rev8 a ^^^ rev8 b := by
  apply BitVec.eq_of_getLsbD_eq
  intro i hi
  have h := rev8_getLsbD (a ^^^ b) ⟨i, hi⟩
  have ha := rev8_getLsbD a ⟨i, hi⟩
  have hb := rev8_getLsbD b ⟨i, hi⟩
  simp only at h ha hb
  rw [BitVec.getLsbD_xor, h, ha, hb, BitVec.getLsbD_xor]

@[simp] theorem rev8_zero : rev8 0#8 = 0#8 := by decide

/-- The data byte enters the register linearly. -/
theorem crcInput_xor (p : CrcParams) (a b : Byte) : crcInput p (a ^^^ b) = crcInput p a ^^^ crcInput p b := by
  unfold crcInput
  split
  · exact rev8_xor a b
  · rfl

@[simp] theorem crcInput_zero (p : CrcParams) : crcInput p 0#8 = 0#8 := by
  unfold crcInput
  split <;> simp

/-- R86: a register of zero stays zero in one pass. -/
theorem crcShift_zero (poly : Byte) : crcShift poly 0#8 = 0#8 := by
  simp [crcShift]

/-- One pass of the loop is linear in the register. -/
theorem crcShift_xor (poly a b : Byte) : crcShift poly (a ^^^ b) = crcShift poly a ^^^ crcShift poly b := by
  have hs : (a ^^^ b) <<< 1 = (a <<< 1) ^^^ (b <<< 1) := by
    ext i
    simp only [BitVec.getElem_shiftLeft, BitVec.getElem_xor]
    cases decide (i < 1) <;> simp
  have hm : (a ^^^ b).msb = (a.msb ^^ b.msb) := BitVec.msb_xor
  unfold crcShift
  rw [hm, hs]
  cases a.msb <;> cases b.msb <;> simp only [Bool.xor_false, Bool.xor_true, Bool.not_false, Bool.not_true, if_true,
    Bool.false_eq_true, if_false]
  · rw [BitVec.xor_assoc]
  · rw [BitVec.xor_assoc, BitVec.xor_assoc, BitVec.xor_comm poly]
  · rw [BitVec.xor_assoc, BitVec.xor_comm poly, BitVec.xor_assoc, BitVec.xor_self, BitVec.xor_zero]

/-- `n` passes of the loop are linear in the register. -/
theorem crcShifts_xor (poly : Byte) : ∀ (n : Nat) (a b : Byte),
    crcShifts poly n (a ^^^ b) = crcShifts poly n a ^^^ crcShifts poly n b
  | 0, _, _ => rfl
  | n + 1, a, b => by simp only [crcShifts, crcShift_xor, crcShifts_xor poly n]

/-- R86: a register of zero stays zero. -/
@[simp] theorem crcShifts_zero (poly : Byte) : ∀ n : Nat, crcShifts poly n 0#8 = 0#8
  | 0 => rfl
  | n + 1 => by simp only [crcShifts, crcShift_zero, crcShifts_zero poly n]

end Sys2Proof.Machine
end

