-- ==== Sys2Proof/Laws/Frame.lean ====
section
/-! SUPPORT. The wire frame: its parts, and parsing what was packed. -/

namespace Sys2Proof

@[simp] theorem Frame.body_length (f : Frame) : f.body.length = 3 + f.payload.length := by
  simp [Frame.body]; omega

@[simp] theorem Frame.pack_length (f : Frame) : f.pack.length = 4 + f.payload.length := by
  simp [Frame.pack]; omega

theorem Frame.pack_eq (f : Frame) : f.pack = f.marker :: f.address :: f.length :: (f.payload ++ [f.checksum]) := by
  simp [Frame.pack, Frame.body]

/-- What parsing answers: the candidate's bytes are the front of the sequence, and its payload has the length its length byte says. -/
theorem parseFrame?_eq_some {s rest : List Byte} {f : Frame} :
    parseFrame? s = some (f, rest) ↔ f.payload.length = f.length.toNat ∧ s = f.pack ++ rest := by
  constructor
  · intro h
    unfold parseFrame? at h
    split at h
    · rename_i m a l q
      split at h
      · simp at h
      · rename_i r after hd
        simp only [Option.some.injEq, Prod.mk.injEq] at h
        obtain ⟨rfl, rfl⟩ := h
        have hlen := congrArg List.length hd
        simp only [List.length_drop, List.length_cons] at hlen
        refine ⟨by simp; omega, ?_⟩
        have hq : q = q.take l.toNat ++ r :: after := by rw [← hd, List.take_append_drop]
        simp only [Frame.pack_eq, List.cons_append, List.append_assoc]
        exact congrArg (fun x => m :: a :: l :: x) hq
    · simp at h
  · rintro ⟨hl, rfl⟩
    simp [Frame.pack_eq, parseFrame?, ← hl]

/-- Parsing a packed frame gives it back, with what follows. -/
theorem parseFrame?_pack_append (f : Frame) (rest : List Byte) (h : f.payload.length = f.length.toNat) :
    parseFrame? (f.pack ++ rest) = some (f, rest) := parseFrame?_eq_some.mpr ⟨h, rfl⟩

/-- Parsing waits exactly while the length byte or some byte of the candidate has not come. -/
theorem parseFrame?_eq_none {s : List Byte} :
    parseFrame? s = none ↔ s.length < 3 ∨ s.length < 4 + (s.getD 2 0).toNat := by
  match s with
  | [] => simp [parseFrame?]
  | [_] => simp [parseFrame?]
  | [_, _] => simp [parseFrame?]
  | m :: a :: l :: q =>
    have hl : (m :: a :: l :: q).getD 2 0 = l := rfl
    simp only [hl, List.length_cons]
    unfold parseFrame?
    simp only
    split
    · rename_i hd
      have := List.drop_eq_nil_iff.mp hd
      simp; omega
    · rename_i r after hd
      have := congrArg List.length hd
      simp only [List.length_drop, List.length_cons] at this
      simp; omega

end Sys2Proof
end

