-- ==== Sys2Proof/Laws/State.lean ====
section
/-! SUPPORT. One lemma per field per update of the state and of the decoder, each true by rfl. -/

namespace Sys2Proof.Machine

@[simp] theorem State.returning_dec (s : State) (r : Result) : (s.returning r).dec = s.dec := rfl
@[simp] theorem State.returning_crcAcc (s : State) (r : Result) : (s.returning r).crcAcc = s.crcAcc := rfl
@[simp] theorem State.returning_decoderReady (s : State) (r : Result) : (s.returning r).decoderReady = s.decoderReady := rfl
@[simp] theorem State.returning_crcReady (s : State) (r : Result) : (s.returning r).crcReady = s.crcReady := rfl
@[simp] theorem State.returning_cfg (s : State) (r : Result) : (s.returning r).cfg = s.cfg := rfl
@[simp] theorem State.returning_requests (s : State) (r : Result) : (s.returning r).requests = s.requests := rfl
@[simp] theorem State.returning_result (s : State) (r : Result) : (s.returning r).result = r := rfl

@[simp] theorem State.setDecoder_dec (s : State) (d : Decoder) : (s.setDecoder d).dec = d := rfl
@[simp] theorem State.setDecoder_crcAcc (s : State) (d : Decoder) : (s.setDecoder d).crcAcc = s.crcAcc := rfl
@[simp] theorem State.setDecoder_decoderReady (s : State) (d : Decoder) : (s.setDecoder d).decoderReady = true := rfl
@[simp] theorem State.setDecoder_crcReady (s : State) (d : Decoder) : (s.setDecoder d).crcReady = s.crcReady := rfl
@[simp] theorem State.setDecoder_cfg (s : State) (d : Decoder) : (s.setDecoder d).cfg = s.cfg := rfl
@[simp] theorem State.setDecoder_requests (s : State) (d : Decoder) : (s.setDecoder d).requests = s.requests := rfl
@[simp] theorem State.setDecoder_result (s : State) (d : Decoder) : (s.setDecoder d).result = s.result := rfl

@[simp] theorem State.setCrc_dec (s : State) (c : Byte) : (s.setCrc c).dec = s.dec := rfl
@[simp] theorem State.setCrc_crcAcc (s : State) (c : Byte) : (s.setCrc c).crcAcc = c := rfl
@[simp] theorem State.setCrc_decoderReady (s : State) (c : Byte) : (s.setCrc c).decoderReady = s.decoderReady := rfl
@[simp] theorem State.setCrc_crcReady (s : State) (c : Byte) : (s.setCrc c).crcReady = true := rfl
@[simp] theorem State.setCrc_cfg (s : State) (c : Byte) : (s.setCrc c).cfg = s.cfg := rfl
@[simp] theorem State.setCrc_requests (s : State) (c : Byte) : (s.setCrc c).requests = s.requests := rfl
@[simp] theorem State.setCrc_result (s : State) (c : Byte) : (s.setCrc c).result = s.result := rfl

@[simp] theorem State.present_dec (s : State) (r : Request) : (s.present r).dec = s.dec := rfl
@[simp] theorem State.present_crcAcc (s : State) (r : Request) : (s.present r).crcAcc = s.crcAcc := rfl
@[simp] theorem State.present_decoderReady (s : State) (r : Request) : (s.present r).decoderReady = s.decoderReady := rfl
@[simp] theorem State.present_crcReady (s : State) (r : Request) : (s.present r).crcReady = s.crcReady := rfl
@[simp] theorem State.present_cfg (s : State) (r : Request) : (s.present r).cfg = s.cfg := rfl
@[simp] theorem State.present_requests (s : State) (r : Request) : (s.present r).requests = r :: s.requests := rfl
@[simp] theorem State.present_result (s : State) (r : Request) : (s.present r).result = s.result := rfl

@[simp] theorem Decoder.append_buf (d : Decoder) (b : Byte) : (d.append b).buf = d.buf ++ [b] := rfl
@[simp] theorem Decoder.append_pos (d : Decoder) (b : Byte) : (d.append b).pos = d.pos := rfl
@[simp] theorem Decoder.append_gcount (d : Decoder) (b : Byte) : (d.append b).gcount = d.gcount := rfl

@[simp] theorem Decoder.drop_buf (d : Decoder) (k : Nat) : (d.drop k).buf = d.buf.drop k := rfl
@[simp] theorem Decoder.drop_pos (d : Decoder) (k : Nat) : (d.drop k).pos = d.pos + k := rfl
@[simp] theorem Decoder.drop_gcount (d : Decoder) (k : Nat) : (d.drop k).gcount = d.gcount := rfl

@[simp] theorem Decoder.discardGarbage_buf (d : Decoder) : (d.discardGarbage).buf = d.buf.drop 1 := rfl
@[simp] theorem Decoder.discardGarbage_pos (d : Decoder) : (d.discardGarbage).pos = d.pos + 1 := rfl
@[simp] theorem Decoder.discardGarbage_gcount (d : Decoder) : (d.discardGarbage).gcount = d.gcount + 1 := rfl

@[simp] theorem Decoder.clearGarbage_buf (d : Decoder) : (d.clearGarbage).buf = d.buf := rfl
@[simp] theorem Decoder.clearGarbage_pos (d : Decoder) : (d.clearGarbage).pos = d.pos := rfl
@[simp] theorem Decoder.clearGarbage_gcount (d : Decoder) : (d.clearGarbage).gcount = 0 := rfl

@[simp] theorem Decoder.empty_buf : Decoder.empty.buf = [] := rfl
@[simp] theorem Decoder.empty_pos : Decoder.empty.pos = 0 := rfl
@[simp] theorem Decoder.empty_gcount : Decoder.empty.gcount = 0 := rfl

end Sys2Proof.Machine
end

