-- ==== Sys2Proof/Laws/Drain.lean ====
section
/-! SUPPORT. The drain procedure: its passes, its loop without the pass bound, and the invariants of R27. -/

namespace Sys2Proof.Machine

variable {p : CrcParams} {d d' : Decoder} {ev : List Event}

/-! One pass. -/

/-- The decoder a pass ends with, whether the loop stops or goes on. -/
def Pass.decoder : Pass → Decoder
  | .stop d _ => d
  | .again d _ => d

/-- R111 step 1. -/
theorem drainPass_empty (h : d.buf = []) : drainPass p d = .stop d [] := by
  simp [drainPass, h]

/-- R111 step 2. -/
theorem drainPass_garbage {m : Byte} {q : List Byte} (h : d.buf = m :: q) (hm : m ≠ marker) :
    drainPass p d = .again d.discardGarbage [] := by
  simp [drainPass, h, hm]

/-- R111 steps 3 to 5, the candidate is not complete. -/
theorem drainPass_wait {q : List Byte} (h : d.buf = marker :: q) (hn : parseFrame? d.buf = none) :
    drainPass p d = .stop d.clearGarbage d.garbageEvents := by
  rw [drainPass, h]
  simp [examine, hn, Pass.after]

/-- R111 steps 3 to 8, the candidate is complete. -/
theorem drainPass_judge {q rest : List Byte} {f : Frame} (h : d.buf = marker :: q) (hf : parseFrame? d.buf = some (f, rest)) :
    drainPass p d = (judge p d.clearGarbage f).after d.garbageEvents := by
  rw [drainPass, h]
  simp [examine, hf]

/-- The four things a pass can do. -/
theorem drainPass_cases (p : CrcParams) (d : Decoder) :
    (d.buf = [] ∧ drainPass p d = .stop d []) ∨
    (∃ m q, d.buf = m :: q ∧ m ≠ marker ∧ drainPass p d = .again d.discardGarbage []) ∨
    (∃ q, d.buf = marker :: q ∧ parseFrame? d.buf = none ∧ drainPass p d = .stop d.clearGarbage d.garbageEvents) ∨
    (∃ q rest f, d.buf = marker :: q ∧ parseFrame? d.buf = some (f, rest) ∧
      drainPass p d = (judge p d.clearGarbage f).after d.garbageEvents) := by
  cases h : d.buf with
  | nil => exact .inl ⟨rfl, drainPass_empty h⟩
  | cons m q =>
    by_cases hm : m = marker
    · subst hm
      cases hf : parseFrame? d.buf with
      | none => exact .inr (.inr (.inl ⟨q, rfl, by rw [← h, hf], drainPass_wait h hf⟩))
      | some fr => exact .inr (.inr (.inr ⟨q, fr.2, fr.1, rfl, by rw [← h, hf], drainPass_judge h hf⟩))
    · exact .inr (.inl ⟨m, q, rfl, hm, drainPass_garbage h hm⟩)

/-- R111: "every pass that continues removes at least one byte". -/
theorem drainPass_again_shorter (h : drainPass p d = .again d' ev) : d'.buf.length < d.buf.length := by
  obtain ⟨_, h2⟩ | ⟨m, q, hb, _, h2⟩ | ⟨q, _, _, h2⟩ | ⟨q, rest, f, hb, _, h2⟩ := drainPass_cases p d
  · simp [h2] at h
  · rw [h2] at h; injection h with h; subst h; simp [hb]
  · simp [h2] at h
  · rw [h2, judge] at h
    split at h <;> (simp only [Pass.after] at h; injection h with h; subst h; simp [hb])
    simp [Frame.size]; omega

/-! The loop. -/

/-- More passes than the buffer has bytes change nothing. -/
theorem drainLoop_enough (p : CrcParams) : ∀ (n : Nat) (d : Decoder), d.buf.length ≤ n → drainLoop p n d = drain p d := by
  intro n
  induction n using Nat.strong_induction_on with
  | _ n ih =>
    intro d hn
    unfold drain
    cases n with
    | zero =>
      have : d.buf.length = 0 := by omega
      rw [this]
    | succ k =>
      cases hl : d.buf.length with
      | zero =>
        have hb : d.buf = [] := List.length_eq_zero_iff.mp hl
        simp [drainLoop, drainPass_empty hb]
      | succ j =>
        simp only [drainLoop]
        cases hp : drainPass p d with
        | stop d' ev => rfl
        | again d' ev =>
          have hs := drainPass_again_shorter hp
          simp only
          rw [ih k (by omega) d' (by omega), ih j (by omega) d' (by omega)]

/-- R111: the loop, without the bound on its passes. -/
theorem drain_eq (p : CrcParams) (d : Decoder) :
    drain p d = match drainPass p d with
      | .stop d' ev => (d', ev)
      | .again d' ev => ((drain p d').1, ev ++ (drain p d').2) := by
  rw [← drainLoop_enough p (d.buf.length + 1) d (by omega)]
  simp only [drainLoop]
  cases hp : drainPass p d with
  | stop d' ev => rfl
  | again d' ev =>
    have hs := drainPass_again_shorter hp
    simp only
    rw [drainLoop_enough p d.buf.length d' (by omega)]

/-- The loop stops at once. -/
theorem drain_of_stop (h : drainPass p d = .stop d' ev) : drain p d = (d', ev) := by
  rw [drain_eq, h]

/-- The loop goes on. -/
theorem drain_of_again (h : drainPass p d = .again d' ev) : drain p d = ((drain p d').1, ev ++ (drain p d').2) := by
  rw [drain_eq, h]

/-- Induction along the passes of the loop. -/
theorem drain_induction {P : Decoder → Prop}
    (pass : ∀ d, (∀ d' ev, drainPass p d = .again d' ev → P d') → P d) (d : Decoder) : P d := by
  generalize hn : d.buf.length = n
  induction n using Nat.strong_induction_on generalizing d with
  | _ n ih => exact pass d (fun d' ev h => ih _ (hn ▸ drainPass_again_shorter h) d' rfl)

/-! Phases after the loop (R118). -/

/-- R118: the loop stops with an empty buffer, or with a marker in front, a candidate that is not complete, and no garbage counted. -/
theorem drain_stops (p : CrcParams) (d : Decoder) :
    (drain p d).1.buf = [] ∨
    ((drain p d).1.buf.head? = some marker ∧ parseFrame? (drain p d).1.buf = none ∧ (drain p d).1.gcount = 0) := by
  refine drain_induction (p := p) (P := fun d => (drain p d).1.buf = [] ∨
    ((drain p d).1.buf.head? = some marker ∧ parseFrame? (drain p d).1.buf = none ∧ (drain p d).1.gcount = 0)) ?_ d
  intro d ih
  cases hp : drainPass p d with
  | again d' ev => rw [drain_of_again hp]; exact ih d' ev hp
  | stop d' ev =>
    rw [drain_of_stop hp]
    obtain ⟨hb, h2⟩ | ⟨m, q, hb, _, h2⟩ | ⟨q, hb, hn, h2⟩ | ⟨q, rest, f, hb, _, h2⟩ := drainPass_cases p d
    · rw [h2] at hp; injection hp with h; subst h; exact .inl hb
    · rw [h2] at hp; simp at hp
    · rw [h2] at hp; injection hp with h; subst h
      exact .inr ⟨by simp [hb], by simpa using hn, rfl⟩
    · rw [h2, judge] at hp; split at hp <;> simp [Pass.after] at hp

/-- R118: `gcount` grows only together with `pos`. -/
theorem drainPass_gcount_le_pos (hg : d.gcount ≤ d.pos) : (drainPass p d).decoder.gcount ≤ (drainPass p d).decoder.pos := by
  obtain ⟨_, h2⟩ | ⟨m, q, _, _, h2⟩ | ⟨q, _, _, h2⟩ | ⟨q, rest, f, _, _, h2⟩ := drainPass_cases p d <;> rw [h2]
  · exact hg
  · simpa [Pass.decoder] using hg
  · simp [Pass.decoder]
  · unfold judge
    split <;> simp [Pass.decoder, Pass.after]

/-- R118: INV3 is kept by the loop. -/
theorem drain_gcount_le_pos (p : CrcParams) (d : Decoder) (hg : d.gcount ≤ d.pos) : (drain p d).1.gcount ≤ (drain p d).1.pos := by
  revert hg
  refine drain_induction (p := p) (P := fun d => d.gcount ≤ d.pos → (drain p d).1.gcount ≤ (drain p d).1.pos) ?_ d
  intro d ih hg
  cases hp : drainPass p d with
  | again d' ev => rw [drain_of_again hp]; exact ih d' ev hp (by simpa [hp, Pass.decoder] using drainPass_gcount_le_pos (p := p) hg)
  | stop d' ev => rw [drain_of_stop hp]; simpa [hp, Pass.decoder] using drainPass_gcount_le_pos (p := p) hg

/-- R27, R118: whatever the buffer held, the loop ends in a well-formed decoder state. -/
theorem drain_inv (p : CrcParams) (d : Decoder) (hg : d.gcount ≤ d.pos) : (drain p d).1.Inv := by
  have h3 := drain_gcount_le_pos p d hg
  obtain h | ⟨hm, hn, hc⟩ := drain_stops p d
  · exact ⟨.inl h, .inl (by simp [h]), h3, by simp [h]⟩
  · exact ⟨.inr hm, parseFrame?_eq_none.mp hn, h3, fun _ => hc⟩

/-! The operations on a decoder keep the invariants (R27). -/

theorem Decoder.empty_inv : Decoder.empty.Inv := by decide

theorem Decoder.rxByte_inv (p : CrcParams) {d : Decoder} (h : d.Inv) (b : Byte) : (d.rxByte p b).1.Inv :=
  drain_inv p (d.append b) (by simpa using h.2.2.1)

theorem Decoder.rxPush_inv (p : CrcParams) : ∀ (q : List Byte) {d : Decoder}, d.Inv → (d.rxPush p q).1.Inv
  | [], _, h => h
  | b :: q, _, h => Decoder.rxPush_inv p q (Decoder.rxByte_inv p h b)

theorem Decoder.rxFlush_inv {d : Decoder} (h : d.Inv) : d.rxFlush.1.Inv := by
  have := h.2.2.1
  refine ⟨.inl (by simp [Decoder.rxFlush]), .inl (by simp [Decoder.rxFlush]), ?_, by simp [Decoder.rxFlush]⟩
  simp [Decoder.rxFlush, Decoder.Inv3]

/-! A pushed sequence (R113). -/

@[simp] theorem Decoder.rxPush_nil (p : CrcParams) (d : Decoder) : d.rxPush p [] = (d, []) := rfl

theorem Decoder.rxPush_cons (p : CrcParams) (d : Decoder) (b : Byte) (q : List Byte) :
    d.rxPush p (b :: q) =
      (((d.rxByte p b).1.rxPush p q).1, (d.rxByte p b).2 ++ ((d.rxByte p b).1.rxPush p q).2) := rfl

/-- R113: pushing in two pieces. -/
theorem Decoder.rxPush_append (p : CrcParams) (q r : List Byte) (d : Decoder) :
    d.rxPush p (q ++ r) = (((d.rxPush p q).1.rxPush p r).1, (d.rxPush p q).2 ++ ((d.rxPush p q).1.rxPush p r).2) := by
  induction q generalizing d with
  | nil => simp
  | cons b q ih => simp [Decoder.rxPush_cons, ih, List.append_assoc]

/-- R125: a byte that leaves the candidate at the front incomplete is only stored. -/
theorem Decoder.rxByte_wait {q : List Byte} (hb : d.buf = marker :: q) (hg : d.gcount = 0) (b : Byte)
    (hn : parseFrame? (d.buf ++ [b]) = none) : d.rxByte p b = (d.append b, []) := by
  have h : drainPass p (d.append b) = .stop (d.append b).clearGarbage (d.append b).garbageEvents :=
    drainPass_wait (q := q ++ [b]) (by simp [hb]) (by simpa using hn)
  have h0 : (d.append b).clearGarbage = d.append b := by
    cases d; simp_all [Decoder.append, Decoder.clearGarbage]
  rw [Decoder.rxByte, drain_of_stop h, h0]
  simp [Decoder.garbageEvents, hg]

/-- R117: garbage in phase HUNT. -/
theorem Decoder.rxByte_garbage (hb : d.buf = []) {b : Byte} (hm : b ≠ marker) :
    d.rxByte p b = ({ buf := [], pos := d.pos + 1, gcount := d.gcount + 1 }, []) := by
  have h : drainPass p (d.append b) = .again (d.append b).discardGarbage [] :=
    drainPass_garbage (m := b) (q := []) (by simp [hb]) hm
  have h1 : (d.append b).discardGarbage = { buf := [], pos := d.pos + 1, gcount := d.gcount + 1 } := by
    simp [Decoder.discardGarbage, Decoder.append, Decoder.drop, hb]
  rw [Decoder.rxByte, drain_of_again h, h1, drain_of_stop (drainPass_empty rfl)]
  rfl

/-- R117: a marker in phase HUNT. -/
theorem Decoder.rxByte_marker (hb : d.buf = []) :
    d.rxByte p marker = ({ buf := [marker], pos := d.pos, gcount := 0 }, d.garbageEvents) := by
  have h : drainPass p (d.append marker) = .stop (d.append marker).clearGarbage (d.append marker).garbageEvents :=
    drainPass_wait (q := []) (by simp [hb]) (by simp [hb, parseFrame?])
  rw [Decoder.rxByte, drain_of_stop h]
  simp [Decoder.clearGarbage, Decoder.append, Decoder.garbageEvents, hb]

end Sys2Proof.Machine
end

