-- ==== Sys2Proof/Laws/Ops.lean ====
section
/-! SUPPORT. What each shared operation over the state can do, said once. -/

namespace Sys2Proof.Machine

/-- A receive operation in a specified, well-formed decoder state. -/
theorem receiving_next (s : State) (f : Decoder → Decoder × List Event) (hr : s.decoderReady = true) (hi : s.dec.Inv) :
    receiving s f = .next { s with dec := (f s.dec).1, result := .events (f s.dec).2 } := by
  simp only [receiving, hr, if_true, if_pos hi, State.setDecoder, State.returning]

/-- A receive operation before the decoder's registers hold specified values. -/
theorem receiving_unspecified (s : State) (f : Decoder → Decoder × List Event) (hr : s.decoderReady = false) :
    receiving s f = .fault .decoderUnspecified := by
  simp [receiving, hr]

/-- A receive operation in a decoder state that no run reaches. -/
theorem receiving_illFormed (s : State) (f : Decoder → Decoder × List Event) (hr : s.decoderReady = true) (hi : ¬ s.dec.Inv) :
    receiving s f = .refused .illFormedDecoder := by
  simp only [receiving, hr, if_true, if_neg hi]

/-- Everything a receive operation can do when it completes. -/
theorem receiving_eq_next {s t : State} {f : Decoder → Decoder × List Event} (h : receiving s f = .next t) :
    s.decoderReady = true ∧ s.dec.Inv ∧ t = { s with dec := (f s.dec).1, result := .events (f s.dec).2 } := by
  cases hr : s.decoderReady with
  | false => simp [receiving_unspecified s f hr] at h
  | true =>
    by_cases hi : s.dec.Inv
    · rw [receiving_next s f hr hi] at h
      injection h with h
      exact ⟨rfl, hi, by rw [← h, hr]⟩
    · rw [receiving_illFormed s f hr hi] at h
      exact absurd h (by simp)

/-- An operation that reads `crc_acc` once it holds a specified value. -/
theorem readingCrc_next (s : State) (k : Byte → State) (hr : s.crcReady = true) : readingCrc s k = .next (k s.crcAcc) := by
  simp [readingCrc, hr]

/-- An operation that reads `crc_acc` before it holds a specified value. -/
theorem readingCrc_unspecified (s : State) (k : Byte → State) (hr : s.crcReady = false) :
    readingCrc s k = .fault .crcUnspecified := by
  simp [readingCrc, hr]

/-- Everything an operation that reads `crc_acc` can do when it completes. -/
theorem readingCrc_eq_next {s t : State} {k : Byte → State} (h : readingCrc s k = .next t) :
    s.crcReady = true ∧ t = k s.crcAcc := by
  cases hr : s.crcReady with
  | false => simp [readingCrc, hr] at h
  | true =>
    simp only [readingCrc, hr, if_true] at h
    injection h with h
    exact ⟨rfl, h.symm⟩

/-- Taking a request leaves everything else. -/
theorem takeRequest_eq_some {s s' : State} {r : Request} (h : s.takeRequest = some (r, s')) :
    ∃ rest, s.requests = r :: rest ∧ s' = { s with requests := rest } := by
  unfold State.takeRequest at h
  split at h
  · simp at h
  · rename_i r' rest hq
    simp only [Option.some.injEq, Prod.mk.injEq] at h
    exact ⟨rest, by rw [hq, h.1], h.2.symm⟩

/-- Everything a step can do when it completes: nothing was presented and nothing happened, or a presented operation ran. -/
theorem step_eq_next {s t : State} (h : step s = .next t) :
    (s.requests = [] ∧ t = s) ∨
    ∃ r rest i, s.requests = r :: rest ∧ decodeRequest r = .ok i ∧ exec i { s with requests := rest } = .next t := by
  unfold step at h
  cases hq : s.takeRequest with
  | none =>
    rw [hq] at h
    injection h with h
    refine .inl ⟨?_, h.symm⟩
    unfold State.takeRequest at hq
    split at hq
    · assumption
    · simp at hq
  | some rs =>
    obtain ⟨r, s'⟩ := rs
    obtain ⟨rest, hreq, rfl⟩ := takeRequest_eq_some hq
    rw [hq] at h
    cases hd : decodeRequest r with
    | error why => simp [hd] at h
    | ok i => exact .inr ⟨r, rest, i, hreq, hd, by simpa [hd] using h⟩

/-- An operation's outcome is known by the reading of its own definition: what `exec` does is its meaning. -/
theorem runOps_cons {i : Instr} {ops : List Instr} {s t : State} (h : exec i s = .next t) :
    runOps (i :: ops) s = (runOps ops t).map (fun r => (r.1, t.result :: r.2)) := by
  simp [runOps, h]

end Sys2Proof.Machine
end

