-- ==== Sys2Proof/Laws/Exec.lean ====
section
/-! SUPPORT. What `exec` is for each instruction, over the shared operations; each true by rfl. -/

namespace Sys2Proof.Machine

variable (s : State)

theorem exec_frame (a l : Byte) (q : List Byte) (c : Byte) :
    exec (.frame a l q c) s = receiving s (fun d => d.rxPush s.cfg.crc (frameBytes a l q c)) := rfl

theorem exec_reset :
    exec .reset s = .next { s with dec := Decoder.empty, crcAcc := s.cfg.crc.init, decoderReady := true, crcReady := true,
                                   result := .none } := rfl

theorem exec_crcClr :
    exec .crcClr s = .next { s with crcAcc := s.cfg.crc.init, crcReady := true, result := .none } := rfl

theorem exec_crcUpd (b : Byte) :
    exec (.crcUpd b) s = readingCrc s (fun acc => (s.setCrc (crc8Step s.cfg.crc acc b)).returning .none) := rfl

theorem exec_crcGet : exec .crcGet s = readingCrc s (fun acc => s.returning (.byte (crc8Fin s.cfg.crc acc))) := rfl

theorem exec_crcChk (c : Byte) :
    exec (.crcChk c) s = readingCrc s (fun acc => s.returning (.bool (crc8Fin s.cfg.crc acc == c))) := rfl

theorem exec_txEnc (a : Byte) (q : List Byte) :
    exec (.txEnc a q) s = .next (s.returning
      (if PayloadFits q then .bytes (encodedFrame s.cfg.crc a q) else .payloadTooLong q.length)) := rfl

theorem exec_rxByte (b : Byte) : exec (.rxByte b) s = receiving s (fun d => d.rxByte s.cfg.crc b) := rfl

theorem exec_rxFlush : exec .rxFlush s = receiving s Decoder.rxFlush := rfl

theorem exec_rxRst : exec .rxRst s = .next { s with dec := Decoder.empty, decoderReady := true, result := .none } := rfl

theorem exec_crcBlk (q : List Byte) :
    exec (.crcBlk q) s = .next { s with crcAcc := crcReg s.cfg.crc s.cfg.crc.init q, crcReady := true,
                                        result := .byte (crc8 s.cfg.crc q) } := rfl

theorem exec_rxPush (q : List Byte) : exec (.rxPush q) s = receiving s (fun d => d.rxPush s.cfg.crc q) := rfl

theorem exec_decode (q : List Byte) : exec (.decode q) s = .next { s with result := .events (decodeOnce s.cfg.crc q) } := rfl

end Sys2Proof.Machine
end

