-- ==== Sys2Proof/Laws/PerInstr.lean ====
section
/-! SUPPORT. A statement about every instruction as syntax, one lemma per constructor: the first byte of its encoding. -/

namespace Sys2Proof.Laws.SelectByte

/-- R67, R70, R73: the first byte of an instruction's row: `MARKER` for a frame, else the select code. -/
def firstByte : Instr → Option Byte
  | .frame .. => some marker
  | i => i.selectCode

/-- The encoder writes the row's first byte; a pseudo-operation goes by name. -/
def Statement (i : Instr) : Prop :=
  match firstByte i with
  | some b => ∃ rest, encodeRequest i = .coded (b :: rest)
  | none => encodeRequest i = .call i

theorem frame (address length : Byte) (payload : List Byte) (checksum : Byte) :
    Statement (.frame address length payload checksum) := ⟨_, rfl⟩
theorem reset : Statement .reset := ⟨_, rfl⟩
theorem crcClr : Statement .crcClr := ⟨_, rfl⟩
theorem crcUpd (b : Byte) : Statement (.crcUpd b) := ⟨_, rfl⟩
theorem crcGet : Statement .crcGet := ⟨_, rfl⟩
theorem crcChk (c : Byte) : Statement (.crcChk c) := ⟨_, rfl⟩
theorem txEnc (address : Byte) (payload : List Byte) : Statement (.txEnc address payload) := ⟨_, rfl⟩
theorem rxByte (b : Byte) : Statement (.rxByte b) := ⟨_, rfl⟩
theorem rxFlush : Statement .rxFlush := ⟨_, rfl⟩
theorem rxRst : Statement .rxRst := ⟨_, rfl⟩
theorem crcBlk (s : List Byte) : Statement (.crcBlk s) := rfl
theorem rxPush (s : List Byte) : Statement (.rxPush s) := rfl
theorem decode (s : List Byte) : Statement (.decode s) := rfl

end Sys2Proof.Laws.SelectByte
end

