-- ==== Sys2Proof/Laws/Push.lean ====
section
/-! SUPPORT. What the loop and a pushed sequence do on the inputs that the rules of spec/42_decode.md speak of. -/

namespace Sys2Proof.Machine

variable {p : CrcParams} {d : Decoder}

/-! The loop. -/

/-- R111 step 1. -/
theorem drain_nil (h : d.buf = []) : drain p d = (d, []) := drain_of_stop (drainPass_empty h)

/-- R111 steps 4 and 5, nothing counted: the loop leaves a candidate that is not complete. -/
theorem drain_pending (hg : d.gcount = 0) (hm : d.buf.head? = some marker) (hn : parseFrame? d.buf = none) :
    drain p d = (d, []) := by
  obtain ⟨q, hq⟩ := List.head?_eq_some_iff.mp hm
  rw [drain_of_stop (drainPass_wait hq hn)]
  cases d
  simp_all [Decoder.clearGarbage, Decoder.garbageEvents]

/-- R111 step 7, nothing counted: a candidate with a matching checksum leaves whole. -/
theorem drain_good {f : Frame} {rest : List Byte} (hg : d.gcount = 0) (hv : FrameValid p f) (hb : d.buf = f.pack ++ rest) :
    drain p d = ((drain p { buf := rest, pos := d.pos + f.size, gcount := 0 }).1,
      .frame d.pos f.address f.length f.payload f.checksum ::
        (drain p { buf := rest, pos := d.pos + f.size, gcount := 0 }).2) := by
  obtain ⟨hm, hl, hc⟩ := hv
  have hpf : parseFrame? d.buf = some (f, rest) := by rw [hb]; exact parseFrame?_pack_append f rest hl
  have h2 := drainPass_judge (p := p) (d := d) (q := d.buf.drop 1) (by rw [hb, Frame.pack_eq, hm]; simp) hpf
  unfold judge at h2
  rw [if_pos (by simp [crcOk, hc])] at h2
  have hrest : d.buf.drop f.size = rest := by rw [hb, List.drop_left']; simp [Frame.size, hl]
  rw [drain_of_again (h2.trans (Pass.after.eq_2 _ _ _))]
  simp [Decoder.garbageEvents, hg, Decoder.clearGarbage, Decoder.drop, hrest]

/-- R111 step 2 all the way: the loop counts a buffer without a marker. -/
theorem drain_noMarker : ∀ (q : List Byte) (k g : Nat), marker ∉ q →
    drain p { buf := q, pos := k, gcount := g } = ({ buf := [], pos := k + q.length, gcount := g + q.length }, [])
  | [], _, _, _ => drain_nil rfl
  | b :: q, k, g, h => by
    simp only [List.mem_cons, not_or] at h
    rw [drain_of_again (drainPass_garbage (m := b) (q := q) rfl (Ne.symm h.1))]
    simp only [Decoder.discardGarbage, Decoder.drop, List.drop_succ_cons, List.drop_zero]
    rw [drain_noMarker q _ _ h.2]
    simp
    omega

/-- R111: what the loop does to `buf` and `pos`: the oldest bytes leave, and `pos` counts them. -/
theorem drain_drops (p : CrcParams) (d : Decoder) :
    ∃ k, k ≤ d.buf.length ∧ (drain p d).1.buf = d.buf.drop k ∧ (drain p d).1.pos = d.pos + k := by
  refine drain_induction (p := p)
    (P := fun d => ∃ k, k ≤ d.buf.length ∧ (drain p d).1.buf = d.buf.drop k ∧ (drain p d).1.pos = d.pos + k) ?_ d
  intro d ih
  obtain ⟨_, h2⟩ | ⟨m, q, hb, _, h2⟩ | ⟨q, _, _, h2⟩ | ⟨q, rest, f, hb, hpf, h2⟩ := drainPass_cases p d
  · exact ⟨0, by omega, by rw [drain_of_stop h2]; rfl, by rw [drain_of_stop h2]; rfl⟩
  · obtain ⟨k, h1, h3, h4⟩ := ih _ _ h2
    simp only [Decoder.discardGarbage_buf, List.length_drop, Decoder.discardGarbage_pos, List.drop_drop] at h1 h3 h4
    exact ⟨1 + k, by simp [hb] at h1 ⊢; omega, by rw [drain_of_again h2, h3], by rw [drain_of_again h2, h4]; omega⟩
  · exact ⟨0, by omega, by rw [drain_of_stop h2]; rfl, by rw [drain_of_stop h2]; rfl⟩
  · obtain ⟨hl, hs⟩ := parseFrame?_eq_some.mp hpf
    have hlen : f.size ≤ d.buf.length := by rw [hs]; simp [Frame.size, hl]
    have hsz : 4 ≤ f.size := by simp [Frame.size]
    have key : ∀ n ev, 1 ≤ n → n ≤ d.buf.length → drainPass p d = .again (d.clearGarbage.drop n) ev →
        ∃ k, k ≤ d.buf.length ∧ (drain p d).1.buf = d.buf.drop k ∧ (drain p d).1.pos = d.pos + k := by
      intro n ev hn1 hn2 h3
      obtain ⟨k, h4, h5, h6⟩ := ih _ _ h3
      simp only [Decoder.drop_buf, Decoder.clearGarbage_buf, List.length_drop, Decoder.drop_pos, Decoder.clearGarbage_pos,
        List.drop_drop] at h4 h5 h6
      exact ⟨n + k, by omega, by rw [drain_of_again h3, h5], by rw [drain_of_again h3, h6]; omega⟩
    unfold judge at h2
    split at h2
    · exact key _ _ (by omega) hlen h2
    · exact key _ _ (by omega) (by omega) h2

/-- R111: what holds of every event that the loop raises. -/
theorem drain_raises (p : CrcParams) (P : Event → Prop) (hd : ∀ o n, 1 ≤ n → P (.desync o n))
    (hf : ∀ o (f : Frame), FrameValid p f → P (.frame o f.address f.length f.payload f.checksum))
    (hc : ∀ o a l c r, c ≠ r → P (.checksumError o a l c r)) (d : Decoder) : ∀ e ∈ (drain p d).2, P e := by
  have hg : ∀ d : Decoder, ∀ e ∈ d.garbageEvents, P e := by
    intro d e he
    unfold Decoder.garbageEvents at he
    split at he
    · simp only [List.mem_singleton] at he
      subst he
      exact hd _ _ (by omega)
    · simp at he
  refine drain_induction (p := p) (P := fun d => ∀ e ∈ (drain p d).2, P e) ?_ d
  intro d ih
  obtain ⟨_, h2⟩ | ⟨m, q, _, _, h2⟩ | ⟨q, _, _, h2⟩ | ⟨q, rest, f, hb, hpf, h2⟩ := drainPass_cases p d
  · rw [drain_of_stop h2]; simp
  · rw [drain_of_again h2]; simpa using ih _ _ h2
  · rw [drain_of_stop h2]; exact hg d
  · obtain ⟨hl, hs⟩ := parseFrame?_eq_some.mp hpf
    have hmk : f.marker = marker := by
      rw [hb, Frame.pack_eq] at hs
      simp only [List.cons_append, List.cons.injEq] at hs
      exact hs.1.symm
    have key : ∀ d' e0, P e0 → drainPass p d = .again d' (d.garbageEvents ++ [e0]) → ∀ e ∈ (drain p d).2, P e := by
      intro d' e0 he0 h3 e he
      rw [drain_of_again h3] at he
      simp only [List.mem_append, List.mem_singleton] at he
      rcases he with (he | rfl) | he
      · exact hg d e he
      · exact he0
      · exact ih _ _ h3 e he
    unfold judge at h2
    split at h2
    · rename_i hk
      exact key _ _ (hf _ f ⟨hmk, hl, (by simpa [crcOk] using hk : frameCrc p f.body = f.checksum).symm⟩) h2
    · rename_i hk
      exact key _ _ (hc _ _ _ _ _ (by simpa [crcOk] using hk)) h2

/-! A pushed sequence. -/

/-- R125: bytes that leave the candidate at the front incomplete are only stored. -/
theorem Decoder.rxPush_wait (p : CrcParams) : ∀ (q : List Byte) {d : Decoder}, d.buf.head? = some marker → d.gcount = 0 →
    parseFrame? (d.buf ++ q) = none → d.rxPush p q = ({ d with buf := d.buf ++ q }, [])
  | [], d, _, _, _ => by simp
  | b :: q, d, hb, hg, hn => by
    obtain ⟨q0, hq0⟩ := List.head?_eq_some_iff.mp hb
    have hmono : parseFrame? (d.buf ++ [b]) = none := by
      cases hp : parseFrame? (d.buf ++ [b]) with
      | none => rfl
      | some fr =>
        obtain ⟨hl, hs⟩ := (parseFrame?_eq_some (f := fr.1) (rest := fr.2)).mp hp
        have hcat : d.buf ++ b :: q = fr.1.pack ++ (fr.2 ++ q) := by rw [← List.append_assoc, ← hs]; simp
        rw [hcat, parseFrame?_pack_append _ _ hl] at hn
        simp at hn
    rw [Decoder.rxPush_cons, Decoder.rxByte_wait hq0 hg b hmono,
      Decoder.rxPush_wait p q (d := d.append b) (by simp [hq0]) (by simpa using hg) (by simpa using hn)]
    simp [Decoder.append]

/-- R113, R125: pushing the rest of a pending candidate runs the loop once, on the whole frame. -/
theorem Decoder.rxPush_completes (p : CrcParams) {d : Decoder} {f : Frame} {q : List Byte} (hg : d.gcount = 0)
    (hb : d.buf.head? = some marker) (hl : f.payload.length = f.length.toNat) (hq : q ≠ []) (hs : d.buf ++ q = f.pack) :
    d.rxPush p q = drain p { d with buf := f.pack } := by
  obtain ⟨q', b, rfl⟩ : ∃ q' b, q = q' ++ [b] := ⟨q.dropLast, q.getLast hq, (List.dropLast_append_getLast hq).symm⟩
  have hn : parseFrame? (d.buf ++ q') = none := by
    cases hp : parseFrame? (d.buf ++ q') with
    | none => rfl
    | some fr =>
      obtain ⟨hl2, hs2⟩ := (parseFrame?_eq_some (f := fr.1) (rest := fr.2)).mp hp
      have h1 := parseFrame?_pack_append f [] hl
      rw [List.append_nil, ← hs, ← List.append_assoc, hs2, List.append_assoc, parseFrame?_pack_append _ _ hl2] at h1
      simp at h1
  rw [Decoder.rxPush_append, Decoder.rxPush_wait p q' hb hg hn]
  simp only [Decoder.rxPush_cons, Decoder.rxPush_nil, List.nil_append, List.append_nil]
  rw [Decoder.rxByte, Decoder.append, ← hs, List.append_assoc]

/-- R117, R125: a whole frame pushed on an empty buffer: the garbage report, then the loop on the frame. -/
theorem Decoder.rxPush_pack (p : CrcParams) {d : Decoder} {f : Frame} (hb : d.buf = [])
    (hl : f.payload.length = f.length.toNat) (hm : f.marker = marker) :
    d.rxPush p f.pack =
      ((drain p { d with buf := f.pack, gcount := 0 }).1,
        d.garbageEvents ++ (drain p { d with buf := f.pack, gcount := 0 }).2) := by
  rw [Frame.pack_eq, hm, Decoder.rxPush_cons, Decoder.rxByte_marker hb]
  simp only
  rw [Decoder.rxPush_completes p (f := f) rfl (by simp) hl (by simp) (by simp [Frame.pack_eq, hm])]
  simp [Frame.pack_eq, hm]

/-- The frame that TX.ENC writes, as a packed record (R66, R100). -/
theorem encodedFrame_eq_pack (p : CrcParams) (a : Byte) (q : List Byte) :
    encodedFrame p a q = Frame.pack ⟨marker, a, lengthByte q, q, frameCrc p ([marker, a, lengthByte q] ++ q)⟩ := by
  simp [encodedFrame, Frame.pack, Frame.body]

/-- R100: the length byte of a payload that fits. -/
theorem lengthByte_toNat {q : List Byte} (h : PayloadFits q) : (lengthByte q).toNat = q.length := by
  simp [PayloadFits, lenMax] at h
  simp [lengthByte]
  omega

end Sys2Proof.Machine
end

