-- ==== Sys2Proof/Tests/Slice0.lean ====
section
/-! SUPPORT. Tests. Expected results are those of spec/95_test_vectors.md, cited by section, or of the rule named. -/

open Sys2Proof Sys2Proof.Machine

namespace Sys2Proof.Tests

set_option maxRecDepth 100000

/-! Helpers. -/

/-- The block after RESET under the parameters `REF` of R9, with these decoder registers and this `crc_acc`. -/
def refState (buf : List Byte) (pos gcount : Nat) (acc : Byte) : State :=
  { dec := { buf := buf, pos := pos, gcount := gcount }, crcAcc := acc, decoderReady := true, crcReady := true,
    cfg := Config.ref, requests := [], result := .none }

/-- The same before the first RESET: no register holds a specified value. -/
def unsetState : State := { refState [] 0 0 0 with decoderReady := false, crcReady := false }

/-- A sequence of `n` zero bytes. -/
def zeros (n : Nat) : List Byte := List.replicate n 0

theorem zeros_length (n : Nat) : (zeros n).length = n := List.length_replicate

/-- What a completed operation leaves: the decoder, `crc_acc` and the result. -/
def seen : Host.Outcome State Fault Refusal → Option (Decoder × Byte × Result)
  | .next t => some (t.dec, t.crcAcc, t.result)
  | _ => none

/-- The reason an operation stopped with a fault. -/
def faultOf : Host.Outcome State Fault Refusal → Option Fault
  | .fault f => some f
  | _ => none

/-- The reason an operation was refused. -/
def refusalOf : Host.Outcome State Fault Refusal → Option Refusal
  | .refused r => some r
  | _ => none

/-- The instruction of a coded request. -/
def decoded (bytes : List Byte) : Option Instr := (decodeBytes bytes).toOption

/-- Why a coded request is turned away. -/
def rejected (r : Request) : Option Reject :=
  match decodeRequest r with
  | .ok _ => none
  | .error why => some why

/-! WellFormed (R60): the one check, and terms it refuses. -/

theorem test_wellFormed_frame_length_matches : (Instr.frame 0x10 0x03 [1, 2, 3] 0xA0).wellFormed = true := by decide
theorem test_wellFormed_frame_payload_short : (Instr.frame 0x10 0x03 [1, 2] 0xA0).wellFormed = false := by decide
theorem test_wellFormed_frame_payload_long : (Instr.frame 0x10 0x00 [1] 0xA0).wellFormed = false := by decide
theorem test_call_ill_formed_refused : rejected (.call (.frame 0x10 0x03 [1, 2] 0xA0)) = some .frameLength := by decide

/-! Decoding: words written out from R61, R70 and the encoding column of 95 section 4. -/

theorem test_decode_frame : decoded [0xF7, 0x10, 0x03, 0x01, 0x02, 0x03, 0xA0] = some (.frame 0x10 0x03 [1, 2, 3] 0xA0) := by decide
theorem test_decode_frame_empty : decoded [0xF7, 0x01, 0x00, 0x6F] = some (.frame 0x01 0x00 [] 0x6F) := by decide
theorem test_decode_reset : decoded [0b00000000] = some .reset := by decide
theorem test_decode_crcClr : decoded [0b00000001] = some .crcClr := by decide
theorem test_decode_crcUpd : decoded [0b00000010, 0xF7] = some (.crcUpd 0xF7) := by decide
theorem test_decode_crcGet : decoded [0b00000011] = some .crcGet := by decide
theorem test_decode_crcChk : decoded [0b00000100, 0xA0] = some (.crcChk 0xA0) := by decide
theorem test_decode_txEnc : decoded [0b00000101, 0x10, 0x01, 0x02, 0x03] = some (.txEnc 0x10 [1, 2, 3]) := by decide
theorem test_decode_txEnc_empty : decoded [0b00000101, 0x10] = some (.txEnc 0x10 []) := by decide
theorem test_decode_rxByte : decoded [0b00000110, 0xF7] = some (.rxByte 0xF7) := by decide
theorem test_decode_rxFlush : decoded [0b00000111] = some .rxFlush := by decide
theorem test_decode_rxRst : decoded [0b00001000] = some .rxRst := by decide
theorem test_decode_crcBlk : decodeRequest (.call (.crcBlk [1])) = .ok (.crcBlk [1]) := by rfl
theorem test_decode_rxPush : decodeRequest (.call (.rxPush [1])) = .ok (.rxPush [1]) := by rfl
theorem test_decode_decode : decodeRequest (.call (.decode [1])) = .ok (.decode [1]) := by rfl

theorem test_reject_nothing : rejected (.coded []) = some .noSelect := by decide
theorem test_reject_select_9 : rejected (.coded [0x09]) = some (.noSuchOperation 0x09) := by decide
theorem test_reject_select_F : rejected (.coded [0x0F]) = some (.noSuchOperation 0x0F) := by decide
theorem test_reject_operand_missing : rejected (.coded [0x02]) = some (.operandCount 0x02) := by decide
theorem test_reject_operand_extra : rejected (.coded [0x07, 0x00]) = some (.operandCount 0x07) := by decide
theorem test_reject_frame_short : rejected (.coded [0xF7, 0x01, 0x01, 0x6F]) = some .frameCutShort := by decide
theorem test_reject_frame_long : rejected (.coded [0xF7, 0x01, 0x00, 0x6F, 0x00]) = some .bytesAfterFrame := by decide

/-! The table's words: 8-bit words of R70, and the 8-bit match of the FRAME row. -/

theorem test_table_reset : decodeTableWord 8 0x00 = some .reset := by decide
theorem test_table_crcUpd : decodeTableWord 8 0x02 = some (.crcUpd 0) := by decide
theorem test_table_rxRst : decodeTableWord 8 0x08 = some .rxRst := by decide
theorem test_table_frame : decodeTableWord 8 0xF7 = some (.frame 0 0 [] 0) := by decide
theorem test_fetch_crcUpd :
    seen (step ((refState [] 0 0 0xCB).withFetchWord 16 0x0102)) = some (⟨[], 0, 0⟩, 0x78, .none) := by decide

/-! The CRC functions: 95 sections 3.1 to 3.3. -/

theorem test_crc8_check_value_ref : crc8 CrcParams.ref [0x31, 0x32, 0x33, 0x34, 0x35, 0x36, 0x37, 0x38, 0x39] = 0xF4 := by decide
theorem test_crc8_check_value_maxim : crc8 CrcParams.maxim0 [0x31, 0x32, 0x33, 0x34, 0x35, 0x36, 0x37, 0x38, 0x39] = 0xA1 := by decide
theorem test_crc8_maxim_finalises_reflected : crc8 CrcParams.maxim0 [0xF7, 0x01, 0x00] = 0x33 := by decide
theorem test_crc8_init_and_xorout : crc8 { CrcParams.ref with init := 0xFF, xorout := 0x55 } [0xF7, 0x01, 0x00] = 0x11 := by decide
theorem test_frameCrc_start_0 : frameCrc CrcParams.ref [0xF7, 0x01, 0x00] = 0x6F := by decide
theorem test_frameCrc_start_1 : frameCrc CrcParams.alt1 [0xF7, 0x01, 0x00] = 0x15 := by decide
theorem test_crcTable_80 : (crcTable 0x07)[0x80]? = some 0x89 := by decide

/-! One operation each: 95 sections 3.4 to 3.9. -/

/-- 95 section 3.9, first row. -/
theorem test_reset : seen (exec .reset (refState [0xF7, 0x10] 9 0 0xCB)) = some (⟨[], 0, 0⟩, 0x00, .none) := by decide
/-- 95 section 3.9, the power-on row. -/
theorem test_reset_before_first : seen (exec .reset unsetState) = some (⟨[], 0, 0⟩, 0x00, .none) := by decide
/-- 95 section 3.4 step 11. -/
theorem test_crcClr : seen (exec .crcClr (refState [0xF7] 5 0 0x6F)) = some (⟨[0xF7], 5, 0⟩, 0x00, .none) := by decide
/-- 95 section 3.4 step 4. -/
theorem test_crcUpd : seen (exec (.crcUpd 0x01) (refState [] 0 0 0xCB)) = some (⟨[], 0, 0⟩, 0x78, .none) := by decide
/-- R171. -/
theorem test_crcUpd_before_clear : faultOf (exec (.crcUpd 0x01) unsetState) = some .crcUnspecified := by decide
/-- 95 section 3.4 step 7. -/
theorem test_crcGet : seen (exec .crcGet (refState [] 0 0 0x6F)) = some (⟨[], 0, 0⟩, 0x6F, .byte 0x6F) := by decide
/-- 95 section 3.3: the stored register CC of MAXIM0 finalises to 33. -/
theorem test_crcGet_maxim :
    seen (exec .crcGet { refState [] 0 0 0xCC with cfg := Config.maxim0 }) = some (⟨[], 0, 0⟩, 0xCC, .byte 0x33) := by decide
/-- 95 section 3.4 step 8. -/
theorem test_crcChk_true : seen (exec (.crcChk 0x6F) (refState [] 0 0 0x6F)) = some (⟨[], 0, 0⟩, 0x6F, .bool true) := by decide
/-- 95 section 3.4 step 9. -/
theorem test_crcChk_false : seen (exec (.crcChk 0x6E) (refState [] 0 0 0x6F)) = some (⟨[], 0, 0⟩, 0x6F, .bool false) := by decide
/-- 95 section 3.4, last lines. -/
theorem test_crcBlk : seen (exec (.crcBlk [0xF7, 0x01, 0x00]) unsetState) = some (⟨[], 0, 0⟩, 0x6F, .byte 0x6F) := by decide
/-- 95 section 3.4, last lines: under MAXIM0 the register is kept un-finalised. -/
theorem test_crcBlk_maxim :
    seen (exec (.crcBlk [0xF7, 0x01, 0x00]) { unsetState with cfg := Config.maxim0 }) = some (⟨[], 0, 0⟩, 0xCC, .byte 0x33) := by
  decide
/-- 95 section 3.6, row 3, with a candidate pending. -/
theorem test_txEnc :
    seen (exec (.txEnc 0x10 [1, 2, 3]) (refState [0xF7, 0x01] 0 0 0x78)) =
      some (⟨[0xF7, 0x01], 0, 0⟩, 0x78, .bytes [0xF7, 0x10, 0x03, 0x01, 0x02, 0x03, 0xA0]) := by decide
/-- 95 section 3.6: the refusal. -/
theorem test_txEnc_too_long :
    seen (exec (.txEnc 0x01 (zeros 256)) (refState [] 0 0 0)) = some (⟨[], 0, 0⟩, 0, .payloadTooLong 256) := by
  rw [exec_txEnc, if_neg (by simp [PayloadFits, lenMax, zeros_length]), zeros_length]
  rfl
/-- 95 section 3.7 scenario E, byte 5: a rescan inside one operation. -/
theorem test_rxByte_rescan :
    seen (exec (.rxByte 0x00) (refState [0xF7, 0x05, 0x02, 0xF7, 0x01] 0 0 0)) =
      some (⟨[0xF7, 0x01, 0x00], 3, 0⟩, 0, .events [.checksumError 0 0x05 0x02 0xC0 0x00, .desync 1 2]) := by decide
/-- 95 section 3.7 scenario F, byte 4: two verdicts from one byte. -/
theorem test_rxByte_two_verdicts :
    seen (exec (.rxByte 0x6F) (refState [0xF7, 0xF7, 0x01, 0x00] 0 0 0)) =
      some (⟨[], 5, 0⟩, 0, .events [.checksumError 0 0xF7 0x01 0x0E 0x6F, .frame 1 0x01 0x00 [] 0x6F]) := by decide
/-- 95 section 3.7, small cases. -/
theorem test_rxFlush_truncated :
    seen (exec .rxFlush (refState [0xF7, 0x10, 0x03, 0x01] 0 0 0)) = some (⟨[], 4, 0⟩, 0, .events [.truncated 0 4]) := by decide
/-- 95 section 3.7, small cases. -/
theorem test_rxFlush_desync : seen (exec .rxFlush (refState [] 3 3 0)) = some (⟨[], 3, 0⟩, 0, .events [.desync 0 3]) := by decide
/-- 95 section 3.7, small cases: the garbage is never reported, `crc_acc` stays. -/
theorem test_rxRst : seen (exec .rxRst (refState [] 7 6 0x6F)) = some (⟨[], 0, 0⟩, 0x6F, .none) := by decide
/-- 95 section 3.7 scenario K under ALT1, bytes 0 to 4. -/
theorem test_rxPush_alt1 :
    seen (exec (.rxPush [0x00, 0xF7, 0x01, 0x00, 0x15]) { refState [] 0 0 0 with cfg := Config.alt1 }) =
      some (⟨[], 5, 0⟩, 0, .events [.desync 0 1, .frame 1 0x01 0x00 [] 0x15]) := by decide
/-- 93 U5. -/
theorem test_rxPush_ill_formed : refusalOf (exec (.rxPush []) (refState [0x00] 0 0 0)) = some .illFormedDecoder := by decide
/-- 95 section 3.8 group C: the frame behind the corrupt one is not reported. -/
theorem test_decode_stops_at_verdict :
    seen (exec (.decode [0x00, 0xF7, 0x02, 0x00, 0x00, 0xF7, 0x01, 0x00, 0x6F]) (refState [0xF7, 0x01] 0 0 0)) =
      some (⟨[0xF7, 0x01], 0, 0⟩, 0, .events [.desync 0 1, .checksumError 1 0x02 0x00 0x50 0x00]) := by decide
/-- 95 section 3.8 group N. -/
theorem test_decode_no_marker :
    seen (exec (.decode [0x00, 0x01]) unsetState) = some (⟨[], 0, 0⟩, 0, .events [.desync 0 2, .noMarker 2]) := by decide
/-- 95 section 3.7 scenario A, as one FRAME row. -/
theorem test_frame :
    seen (exec (.frame 0x10 0x03 [1, 2, 3] 0xA0) (refState [] 0 0 0)) =
      some (⟨[], 7, 0⟩, 0, .events [.frame 0 0x10 0x03 [1, 2, 3] 0xA0]) := by decide
/-- 95 section 3.7 scenario C, bytes 0 to 6, as one FRAME row. -/
theorem test_frame_corrupt :
    seen (exec (.frame 0x10 0x03 [1, 2, 7] 0xA0) (refState [] 0 0 0)) =
      some (⟨[], 7, 6⟩, 0, .events [.checksumError 0 0x10 0x03 0xBC 0xA0]) := by decide

/-! Witnesses: for each statement with hypotheses, states and operands that meet them, clause by clause. -/

theorem witness_OnlyReadersStopBeforeFirstReset_decoder : State.powerOn.decoderReady = false ∧ unsetState.decoderReady = false := by
  decide
theorem witness_OnlyReadersStopBeforeFirstReset_crc : State.powerOn.crcReady = false ∧ unsetState.crcReady = false := by decide
theorem witness_OnlyReadersStopBeforeFirstReset_both :
    ∃ t u v : State, exec .rxRst unsetState = .next t ∧ exec .crcClr t = .next u ∧ exec .reset unsetState = .next v :=
  ⟨_, _, _, rfl, rfl, rfl⟩

theorem witness_CrcUpdStepsRegister : (refState [] 0 0 0xCB).crcReady = true := by decide
theorem witness_CrcGetReturnsFinalisedRegister :
    (refState [] 0 0 0xFF).crcReady = true ∧ ∃ t, exec .crcClr (refState [] 0 0 0xFF) = .next t := ⟨rfl, _, rfl⟩
theorem witness_CrcChkComparesFinalisedRegister : (refState [] 0 0 0x6F).crcReady = true := by decide

theorem witness_OnlyCrcOperationsTouchAccumulator_changed :
    ∃ t, exec (.crcUpd 0xF7) (refState [] 0 0 0) = .next t ∧ t.crcAcc ≠ (refState [] 0 0 0).crcAcc := ⟨_, rfl, by decide⟩
theorem witness_OnlyCrcOperationsTouchAccumulator_ready :
    ∃ t, exec .crcClr unsetState = .next t ∧ t.crcReady ≠ unsetState.crcReady := ⟨_, rfl, by decide⟩
theorem witness_OnlyCrcOperationsTouchAccumulator_blind :
    Instr.rxByte 0xF7 ≠ .crcGet ∧ (∀ b, Instr.rxByte 0xF7 ≠ .crcUpd b) ∧ (∀ b, Instr.rxByte 0xF7 ≠ .crcChk b) :=
  by simp

theorem witness_CrcStartIsAbsorbedByInit :
    CrcParams.ref.start = 0 ∧
    ({ CrcParams.ref with start := 1, init := 0xCB } : CrcParams) =
      { CrcParams.ref with start := 1, init := crc8Step CrcParams.ref CrcParams.ref.init marker } ∧
    ([0xF7, 0x01, 0x00] : List Byte).head? = some marker := by decide
theorem witness_CrcStepIsLinear : ([] : List Byte).length = ([] : List Byte).length ∧ ([0xF7, 0x01] : List Byte).length = ([0x00, 0xFF] : List Byte).length := by
  decide

/-- An encoded frame of 95 section 3.6 as a record. -/
def sample : Frame := { marker := 0xF7, address := 0x01, length := 0x01, payload := [0x00], checksum := 0x1F }

theorem witness_CrcDetectsEverySingleBit_first : CrcParams.ref.poly ≠ 0 ∧ 0 < ([0x31] : List Byte).length ∧ 7 < 8 := by decide
theorem witness_CrcDetectsEverySingleBit_frame :
    CrcParams.ref.poly ≠ 0 ∧ FrameValid CrcParams.ref sample ∧ 1 < sample.pack.length ∧ 3 ≤ 3 ∧ 3 < sample.pack.length ∧
    3 ≤ 4 ∧ 4 < sample.pack.length := by decide
theorem witness_CrcDetectsEverySingleBit_zero :
    ({ CrcParams.ref with poly := 0 } : CrcParams).poly = 0 ∧ ([0x00] : List Byte) ≠ [] := by decide
theorem witness_CrcResidueIsZero :
    CrcParams.ref.xorout = 0 ∧ CrcParams.ref.refin = CrcParams.ref.refout ∧
    CrcParams.maxim0.xorout = 0 ∧ CrcParams.maxim0.refin = CrcParams.maxim0.refout := by decide
theorem witness_TableDrivenStepEqualsBitwise : CrcParams.ref.refin = false := by decide

theorem witness_PackAndUnpackAreInverse_pack : FrameValid CrcParams.ref sample := by decide
theorem witness_PackAndUnpackAreInverse_unpack : IsFrame CrcParams.ref [0xF7, 0x01, 0x00, 0x6F] := by decide
theorem witness_TxEncReturnsTheFrame :
    (zeros 255).length ≤ 255 ∧ 254 < (zeros 255).length ∧ ([] : List Byte).length ≤ 255 := by
  simp [zeros_length]
theorem witness_TxEncRefusesLongPayload : 255 < (zeros 256).length := by simp [zeros_length]
theorem witness_TxEncDependsOnOperandsOnly :
    (refState [0xF7] 3 0 0xCB).cfg = unsetState.cfg ∧ refState [0xF7] 3 0 0xCB ≠ unsetState := by decide
theorem witness_TxEncIsInjective :
    exec (.txEnc 0x01 []) (refState [] 0 0 0) =
      .next { refState [] 0 0 0 with result := .bytes (encodedFrame CrcParams.ref 0x01 []) } ∧
    exec (.txEnc 0x01 []) (refState [0xF7] 9 0 0) =
      .next { refState [0xF7] 9 0 0 with result := .bytes (encodedFrame CrcParams.ref 0x01 []) } := ⟨rfl, rfl⟩
theorem witness_EncodeThenDecodeRoundTrip :
    (zeros 255).length ≤ 255 ∧
    (refState [] 0 0 0).decoderReady = true ∧ (refState [] 0 0 0).dec.Inv ∧ (refState [] 0 0 0).dec.buf = [] ∧
    (refState [] 7 6 0).dec.Inv ∧ (refState [] 7 6 0).dec.buf = [] ∧ 0 < (refState [] 7 6 0).dec.gcount := by
  simp only [zeros_length]
  decide

/-- A candidate of the greatest size between operations (R118): 258 bytes, one short of the largest frame. -/
def fullBuffer : List Byte := 0xF7 :: 0x01 :: 0xFF :: zeros 255

theorem fullBuffer_length : fullBuffer.length = 258 := by simp [fullBuffer, zeros_length]

theorem fullBuffer_inv (pos : Nat) : Decoder.Inv { buf := fullBuffer, pos := pos, gcount := 0 } := by
  refine ⟨.inr rfl, .inr ?_, by simp [Decoder.Inv3], fun _ => rfl⟩
  simp only [fullBuffer_length]
  decide

theorem witness_RxByteAppendsThenDrains :
    (refState fullBuffer 0 0 0).decoderReady = true ∧ (refState fullBuffer 0 0 0).dec.Inv ∧ (refState [] 7 6 0).dec.Inv ∧
    Event.desync 1 6 ∈ (drain CrcParams.ref { buf := [0xF7], pos := 7, gcount := 6 }).2 :=
  ⟨rfl, fullBuffer_inv 0, by decide, by decide⟩

theorem witness_RxByteTransitionTable_hunt :
    (refState [] 7 6 0).decoderReady = true ∧ (refState [] 7 6 0).dec.Inv ∧ (refState [] 7 6 0).dec.buf = [] ∧
    (0x00 : Byte) ≠ marker := by decide
theorem witness_RxByteTransitionTable_header :
    (refState [0xF7] 0 0 0).dec.Inv ∧ 1 ≤ (refState [0xF7] 0 0 0).dec.buf.length ∧
    (refState [0xF7, 0x10] 0 0 0).dec.Inv ∧ (refState [0xF7, 0x10] 0 0 0).dec.buf.length ≤ 2 := by decide
theorem witness_RxByteTransitionTable_body :
    (refState [0xF7, 0x10, 0x01] 0 0 0).dec.Inv ∧ (refState [0xF7, 0x10, 0x01] 0 0 0).dec.buf = marker :: 0x10 :: 0x01 :: [] ∧
    (refState [0xF7, 0x10, 0x01] 0 0 0).dec.buf.length + 1 < 4 + (0x01 : Byte).toNat := by decide
theorem witness_RxByteTransitionTable_frame :
    (refState [0xF7, 0x01, 0x00] 0 0 0).dec.Inv ∧ (refState [0xF7, 0x01, 0x00] 0 0 0).dec.buf = marker :: 0x01 :: 0x00 :: [] ∧
    (refState [0xF7, 0x01, 0x00] 0 0 0).dec.buf.length + 1 = 4 + (0x00 : Byte).toNat ∧
    frameCrc CrcParams.ref (refState [0xF7, 0x01, 0x00] 0 0 0).dec.buf = 0x6F := by decide
theorem witness_RxByteTransitionTable_mismatch :
    (refState [0xF7, 0x01, 0x00] 0 0 0).dec.Inv ∧ (refState [0xF7, 0x01, 0x00] 0 0 0).dec.buf = marker :: 0x01 :: 0x00 :: [] ∧
    (refState [0xF7, 0x01, 0x00] 0 0 0).dec.buf.length + 1 = 4 + (0x00 : Byte).toNat ∧
    frameCrc CrcParams.ref (refState [0xF7, 0x01, 0x00] 0 0 0).dec.buf ≠ 0x6E := by decide

theorem witness_BufferNeverOverflows_full :
    Decoder.Inv1 { buf := fullBuffer, pos := 0, gcount := 0 } ∧ Decoder.Inv2 { buf := fullBuffer, pos := 0, gcount := 0 } ∧
    Decoder.Inv4 { buf := fullBuffer, pos := 0, gcount := 0 } ∧ Decoder.Inv3 { buf := fullBuffer, pos := 0, gcount := 0 } :=
  ⟨(fullBuffer_inv 0).1, (fullBuffer_inv 0).2.1, (fullBuffer_inv 0).2.2.2, (fullBuffer_inv 0).2.2.1⟩
theorem witness_BufferNeverOverflows_pass :
    drainPass CrcParams.ref { buf := [0x00], pos := 0, gcount := 0 } = .again { buf := [], pos := 1, gcount := 1 } [] := by decide

/-- The corrupt frame of 95 section 3.8 group C. -/
def corrupt : Frame := { marker := 0xF7, address := 0x01, length := 0x00, payload := [], checksum := 0x6E }

theorem witness_ResyncDiscardsOnlyTheMarker_front :
    corrupt.marker = marker ∧ corrupt.payload.length = corrupt.length.toNat ∧
    corrupt.checksum ≠ frameCrc CrcParams.ref corrupt.body ∧
    ([0xF7, 0x01, 0x00, 0x6E, 0xF7] : List Byte) = corrupt.pack ++ [0xF7] := by decide
theorem witness_ResyncDiscardsOnlyTheMarker_noMarker :
    (refState [] 9 0 0).decoderReady = true ∧ (refState [] 9 0 0).dec.Inv ∧ (refState [] 9 0 0).dec.buf = [] ∧
    (refState [] 9 0 0).dec.gcount = 0 ∧ corrupt.marker = marker ∧ corrupt.payload.length = corrupt.length.toNat ∧
    corrupt.checksum ≠ frameCrc (refState [] 9 0 0).cfg.crc corrupt.body ∧ marker ∉ corrupt.pack.drop 1 := by decide
theorem witness_RxPushIsTheFoldOfRxByte :
    (refState [0xF7, 0x10] 9 0 0).decoderReady = true ∧ (refState [0xF7, 0x10] 9 0 0).dec.Inv := by decide
theorem witness_FragmentationDoesNotMatter :
    (refState fullBuffer 0 0 0).decoderReady = true ∧ (refState fullBuffer 0 0 0).dec.Inv := ⟨rfl, fullBuffer_inv 0⟩
theorem witness_RxFlushReportsAndDiscards :
    (refState [0xF7] 5 0 0).decoderReady = true ∧ (refState [0xF7] 5 0 0).dec.Inv ∧ (refState [] 3 3 0).dec.Inv := by decide
theorem witness_RxFlushReportsAndDiscards_clean :
    (refState [] 5 0 0).decoderReady = true ∧ (refState [] 5 0 0).dec.Inv ∧ (refState [] 5 0 0).dec.Clean := by decide
theorem witness_ConcatenatedFramesAllDecode :
    (refState [] 5 0 0).decoderReady = true ∧ (refState [] 5 0 0).dec.buf = [] ∧ (refState [] 5 0 0).dec.gcount = 0 ∧
    ∀ w ∈ ([[0xF7, 0x01, 0x00, 0x6F], [0xF7, 0x02, 0x02, 0x0A, 0x00, 0x58]] : List (List Byte)),
      IsFrame (refState [] 5 0 0).cfg.crc w := by decide
theorem witness_OneShotAgreesWithStreaming_frame :
    decodeOnce CrcParams.ref [0x00, 0xF7, 0x01, 0x00, 0x6F] = [.desync 0 1] ++ [.frame 1 0x01 0x00 [] 0x6F] := by decide
theorem witness_OneShotAgreesWithStreaming_mismatch :
    decodeOnce CrcParams.ref [0xF7, 0x01, 0x00, 0x6E] = [] ++ [.checksumError 0 0x01 0x00 0x6F 0x6E] := by decide
theorem witness_OneShotAgreesWithStreaming_truncated :
    decodeOnce CrcParams.ref [0xAA, 0xF7] = [.desync 0 1] ++ [.truncated 1 1] := by decide
theorem witness_OneShotAgreesWithStreaming_noMarker : decodeOnce CrcParams.ref [] = [] ++ [.noMarker 0] := by decide
theorem witness_GarbageIsCountedUntilReported :
    (refState [] 7 6 0).decoderReady = true ∧ (refState [] 7 6 0).dec.Inv ∧ (refState [] 7 6 0).dec.buf = [] ∧
    marker ∉ ([] : List Byte) ∧ 0 < (refState [] 7 6 0).dec.gcount + ([] : List Byte).length ∧
    marker ∉ ([0x00, 0xFF] : List Byte) ∧ 0 < (refState [] 0 0 0).dec.gcount + ([0x00, 0xFF] : List Byte).length ∧
    ([[0x00], [], [0xFF]] : List (List Byte)).flatten = [0x00, 0xFF] := by decide
theorem witness_PendingCandidateTakesEveryByte_waits :
    (refState [0xF7] 0 0 0).decoderReady = true ∧ (refState [0xF7] 0 0 0).dec.Inv ∧ (refState [0xF7] 0 0 0).dec.buf ≠ [] ∧
    ((refState [0xF7] 0 0 0).dec.buf ++ [0xF7]).length < 3 ∧
    ((refState [0xF7] 0 0 0).dec.buf ++ [0xF7, 0x01, 0xF7]).length <
      4 + (((refState [0xF7] 0 0 0).dec.buf ++ [0xF7, 0x01, 0xF7]).getD 2 0).toNat := by decide
theorem witness_PendingCandidateTakesEveryByte_stays :
    receives .crcClr = false ∧ Instr.crcClr ≠ .rxRst ∧ Instr.crcClr ≠ .reset ∧
    ∃ t, exec .crcClr (refState [0xF7] 0 0 0) = .next t := ⟨rfl, by decide, by decide, _, rfl⟩
theorem witness_PendingCandidateTakesEveryByte_ends :
    (refState [0xF7] 0 0 0).decoderReady = true ∧ (refState [0xF7] 0 0 0).dec.Inv ∧ (refState [0xF7] 0 0 0).dec.buf ≠ [] ∧
    258 ≤ (zeros 258).length := by
  simp only [zeros_length]
  decide
theorem witness_EveryReceivedByteIsAccountedOnce :
    (refState [] 0 0 0).decoderReady = true ∧ (refState [] 0 0 0).dec = { buf := [], pos := 0, gcount := 0 } ∧
    (∀ i ∈ [Instr.rxPush [0x00, 0xF7, 0x01], .rxFlush], receives i = true) ∧
    ∃ t rs, runOps [.rxPush [0x00, 0xF7, 0x01], .rxFlush] (refState [] 0 0 0) = some (t, rs) := ⟨rfl, rfl, by decide, _, _, rfl⟩
theorem witness_EventOffsetsStrictlyIncrease :
    (refState [] 7 6 0).decoderReady = true ∧ (refState [] 7 6 0).dec.Inv ∧
    (∀ i ∈ [Instr.rxByte 0xF7, .rxFlush], receives i = true) ∧
    ∃ t rs, runOps [.rxByte 0xF7, .rxFlush] (refState [] 7 6 0) = some (t, rs) ∧ (eventsOf rs).length = 2 :=
  ⟨rfl, by decide, by decide, _, _, rfl, by decide⟩
theorem witness_EventFieldsAreSound_stream :
    ∃ t, exec (.rxByte 0x6F) (refState [0xF7, 0xF7, 0x01, 0x00] 0 0 0) = .next t ∧
      t.result = .events [.checksumError 0 0xF7 0x01 0x0E 0x6F, .frame 1 0x01 0x00 [] 0x6F] := ⟨_, rfl, by decide⟩
theorem witness_EventFieldsAreSound_flush :
    (∃ t, exec .rxFlush (refState fullBuffer 0 0 0) = .next t ∧ t.result = .events [.truncated 0 258]) ∧
    ∃ t, exec .rxFlush (refState [] 1 1 0) = .next t ∧ t.result = .events [.desync 0 1] := by
  refine ⟨⟨_, (exec_rxFlush _).trans (receiving_next _ _ rfl (fullBuffer_inv 0)), ?_⟩, _, rfl, by decide⟩
  simp [refState, Decoder.rxFlush, Decoder.garbageEvents, Decoder.truncatedEvents, fullBuffer_length]
theorem witness_EventFieldsAreSound_oneShot :
    ∃ t, exec (.decode [0x00]) (refState [] 0 0 0) = .next t ∧ t.result = .events [.desync 0 1, .noMarker 1] := ⟨_, rfl, by decide⟩
theorem witness_EachOperationRaisesOnlyItsEvents :
    (∃ t n, exec (.txEnc 0x01 (zeros 256)) (refState [] 0 0 0) = .next t ∧ t.result = .payloadTooLong n) ∧
    ∃ t, exec (.decode [0x00, 0xF7]) (refState [] 0 0 0) = .next t ∧
      Event.desync 0 1 ∈ t.result.eventList ∧ Event.truncated 1 1 ∈ t.result.eventList := by
  refine ⟨⟨_, 256, exec_txEnc _ _ _, ?_⟩, _, rfl, by decide, by decide⟩
  rw [State.returning_result, if_neg (by simp [PayloadFits, lenMax, zeros_length]), zeros_length]
theorem witness_OneBitErrorOutsideHeaderIsCaught :
    ([] : List Byte).length ≤ 255 ∧ 1 < 4 + ([] : List Byte).length ∧ 3 ≤ 3 ∧ 3 < 4 + ([] : List Byte).length ∧ 7 < 8 ∧
    (zeros 255).length ≤ 255 ∧ 258 < 4 + (zeros 255).length := by simp [zeros_length]
/-- 95 section 3.8 group S, length bits 2, 1 and the false acceptance. -/
theorem witness_LengthBitErrorIsNotAlwaysCaught :
    ([1, 2, 3] : List Byte).length <
      ((flipBit (encodedFrame CrcParams.ref 0x10 [1, 2, 3]) 2 2).getD 2 0).toNat ∧
    (((flipBit (encodedFrame CrcParams.ref 0x10 [1, 2, 3]) 2 1).getD 2 0).toNat < 3 ∧
      frameCrc CrcParams.ref ((flipBit (encodedFrame CrcParams.ref 0x10 [1, 2, 3]) 2 1).take (3 + 1)) ≠
        (flipBit (encodedFrame CrcParams.ref 0x10 [1, 2, 3]) 2 1).getD (3 + 1) 0) ∧
    (((flipBit (encodedFrame CrcParams.ref 0x01 [0x00, 0x1F, 0x55]) 2 1).getD 2 0).toNat = 1 ∧
      frameCrc CrcParams.ref ((flipBit (encodedFrame CrcParams.ref 0x01 [0x00, 0x1F, 0x55]) 2 1).take (3 + 1)) =
        (flipBit (encodedFrame CrcParams.ref 0x01 [0x00, 0x1F, 0x55]) 2 1).getD (3 + 1) 0) := by decide
theorem witness_MarkerBitErrorLosesTheFrame_none :
    marker ∉ (flipBit (encodedFrame CrcParams.ref 0x10 [1, 2, 3]) 0 0).drop 1 := by decide
theorem witness_MarkerBitErrorLosesTheFrame_later :
    (flipBit (encodedFrame CrcParams.ref 0xF7 [0xF7]) 0 7)[1]? = some marker ∧
    marker ∉ (flipBit (encodedFrame CrcParams.ref 0xF7 [0xF7]) 0 7).take 1 := by decide
theorem witness_FrameArrivesAsItsBytes_unset : unsetState.decoderReady = false := by decide
theorem witness_FrameArrivesAsItsBytes_valid :
    (refState [] 5 0 0).decoderReady = true ∧ (refState [] 5 0 0).dec.Inv ∧ (refState [] 5 0 0).dec.Clean ∧
    ([] : List Byte).length = (0x00 : Byte).toNat ∧ 0x6F = frameCrc (refState [] 5 0 0).cfg.crc ([marker, 0x01, 0x00] ++ []) := by
  decide
theorem witness_FrameArrivesAsItsBytes_corrupt :
    (refState [] 5 0 0).decoderReady = true ∧ (refState [] 5 0 0).dec.Inv ∧ (refState [] 5 0 0).dec.Clean ∧
    ([] : List Byte).length = (0x00 : Byte).toNat ∧ 0x6E ≠ frameCrc (refState [] 5 0 0).cfg.crc ([marker, 0x01, 0x00] ++ []) := by
  decide

/-- A state in which the host has presented one operation and one request that stands for none. -/
def presented : State := { refState [0xF7] 5 0 0 with requests := [.coded [0x06, 0x10], .coded [0x09]] }

theorem witness_EveryStepKeepsInvariants :
    presented.Inv ∧ (∃ t, step presented = .next t) ∧ (∃ t, exec (.rxByte 0x10) presented = .next t) ∧
    (∃ t, exec .reset presented = .next t) ∧ (∃ t, exec .rxRst presented = .next t) :=
  ⟨fun _ => by decide, ⟨_, rfl⟩, ⟨_, rfl⟩, ⟨_, rfl⟩, _, rfl⟩
theorem witness_EveryStepKeepsInvariants_full : Decoder.Inv { buf := fullBuffer, pos := 0, gcount := 0 } := fullBuffer_inv 0
theorem witness_IllFormedDecoderIsRefused :
    (refState [0x00] 0 0 0).decoderReady = true ∧ ¬ (refState [0x00] 0 0 0).dec.Inv ∧
    ¬ (refState [0xF7, 0x01, 0x00, 0x6F] 0 0 0).dec.Inv ∧ receives .rxFlush = true := by decide
theorem witness_ConfigurationNeverChanges : (∃ t, exec (.rxByte 0x10) presented = .next t) ∧ ∃ t, step presented = .next t :=
  ⟨⟨_, rfl⟩, _, rfl⟩
theorem witness_PositionOnlyMovesForward :
    (∃ t, exec .rxFlush presented = .next t) ∧ Instr.rxFlush ≠ .rxRst ∧ Instr.rxFlush ≠ .reset ∧
    (∃ t, exec .crcGet presented = .next t) ∧ receives .crcGet = false := ⟨⟨_, rfl⟩, by decide, by decide, ⟨_, rfl⟩, rfl⟩
theorem witness_BufferIsTheUnconsumedTail :
    receives (.rxByte 0x10) = true ∧ ∃ t, exec (.rxByte 0x10) presented = .next t := ⟨rfl, _, rfl⟩
theorem witness_ReceivePathIsIndependent :
    receives .rxFlush = true ∧ (refState [0xF7] 5 0 0x00).dec = (refState [0xF7] 5 0 0xCB).dec ∧
    (refState [0xF7] 5 0 0x00).decoderReady = (refState [0xF7] 5 0 0xCB).decoderReady ∧
    (refState [0xF7] 5 0 0x00).cfg = (refState [0xF7] 5 0 0xCB).cfg := by decide
theorem witness_ReadOnlyOperationsAreIdempotent :
    (∃ t, exec (.txEnc 0x01 []) presented = .next t) ∧ (∃ t, exec .crcGet presented = .next t) ∧
    (∃ t, exec (.crcChk 0x00) presented = .next t) ∧ ∃ t, exec (.decode []) presented = .next t :=
  ⟨⟨_, rfl⟩, ⟨_, rfl⟩, ⟨_, rfl⟩, _, rfl⟩
theorem witness_EveryOperationCompletes :
    State.reset.Operational ∧ (refState fullBuffer 0 0 0).Operational := ⟨⟨rfl, rfl, by decide⟩, rfl, rfl, fullBuffer_inv 0⟩
theorem witness_RunEndingInFlushEndsClean :
    ∃ t rs, runOps ([.rxByte 0xF7] ++ [.rxFlush]) (refState [] 0 0 0) = some (t, rs) := ⟨_, _, rfl⟩

theorem witness_DecodeEncodeRoundTrip :
    (Instr.frame 0x10 0x03 [1, 2, 3] 0xA0).wellFormed = true ∧ (Instr.frame 0x10 0x00 [] 0xA0).wellFormed = true ∧
    (Instr.txEnc 0x10 []).wellFormed = true ∧ (Instr.decode [0xF7]).wellFormed = true := by decide
theorem witness_DecodedBytesEncodeBack :
    decodeBytes [0xF7, 0x01, 0x00, 0x6F] = .ok (.frame 0x01 0x00 [] 0x6F) ∧ decodeBytes [0x08] = .ok .rxRst := ⟨rfl, rfl⟩
theorem witness_UnassignedSelectIsRefused :
    (0x09 : Byte) ≠ marker ∧ 8 < (0x09 : Byte).toNat ∧ (0xFF : Byte) ≠ marker ∧ 8 < (0xFF : Byte).toNat ∧
    (∃ rest, { presented with requests := [.coded [0x09]] }.requests = .coded (0x09 :: []) :: rest) :=
  ⟨by decide, by decide, by decide, by decide, [], rfl⟩
theorem witness_StepRunsTheOldestRequest :
    presented.requests = .coded [0x06, 0x10] :: [.coded [0x09]] ∧ decodeRequest (.coded [0x06, 0x10]) = .ok (.rxByte 0x10) ∧
    decodeRequest (.coded [0x09]) = .error (.noSuchOperation 0x09) := ⟨rfl, rfl, rfl⟩
theorem witness_NothingPresentedNothingHappens : State.reset.requests = [] := rfl
theorem witness_EachReceiveOperationAccountsForItsBytes :
    (refState [0xF7, 0xF7, 0x01, 0x00] 0 0 0).Inv ∧ receives (.rxByte 0x6F) = true ∧
    ∃ t, exec (.rxByte 0x6F) (refState [0xF7, 0xF7, 0x01, 0x00] 0 0 0) = .next t ∧ t.result.eventList.length = 2 :=
  ⟨fun _ => by decide, rfl, _, rfl, by decide⟩

end Sys2Proof.Tests
end

/-! How the received bytes go through the decoder (spec/00_scope.md R12, spec/10_state.md R21, R23): what leaves `buf` leaves at its
old end, and `pos` counts it. Then the statements O47 and O48. -/

namespace Sys2Proof.Machine

/-! The bytes that have come and the bytes that have left. -/

/-- R12, R23: with the bytes `q` received, the decoder `d` becomes `d'`, the events and `gcount` aside: `q` is stored at the end of
`buf`, some number `k` of the oldest bytes leaves, and `pos` moves past exactly those. -/
def Decoder.Receives (d : Decoder) (q : List Byte) (d' : Decoder) : Prop :=
  ∃ k, k ≤ (d.buf ++ q).length ∧ d'.buf = (d.buf ++ q).drop k ∧ d'.pos = d.pos + k

theorem Decoder.Receives.refl (d : Decoder) : d.Receives [] d := ⟨0, by simp⟩

/-- Two receptions in a row are one reception of the concatenation: the second takes its bytes from where the first stopped. -/
theorem Decoder.Receives.trans {d d' d'' : Decoder} {q r : List Byte} (h₁ : d.Receives q d') (h₂ : d'.Receives r d'') :
    d.Receives (q ++ r) d'' := by
  obtain ⟨k, hk, hbuf, hpos⟩ := h₁
  obtain ⟨n, hn, hbuf', hpos'⟩ := h₂
  have hstored : d'.buf ++ r = (d.buf ++ (q ++ r)).drop k := by
    rw [hbuf, ← List.append_assoc, List.drop_append_of_le_length hk]
  rw [hstored] at hn hbuf'
  refine ⟨k + n, ?_, by rw [hbuf', List.drop_drop], by omega⟩
  simp only [List.length_drop, List.length_append] at hn hk ⊢
  omega

theorem Decoder.Receives.pos_le {d d' : Decoder} {q : List Byte} (h : d.Receives q d') : d.pos ≤ d'.pos := by
  obtain ⟨k, _, _, hpos⟩ := h
  omega

theorem Decoder.Receives.isSuffix {d d' : Decoder} {q : List Byte} (h : d.Receives q d') : d'.buf <:+ d.buf ++ q := by
  obtain ⟨k, _, hbuf, _⟩ := h
  exact hbuf ▸ List.drop_suffix k _

/-- R23: `pos + |buf|` is the stream offset of the next byte to come. -/
theorem Decoder.Receives.pos_add_length {d d' : Decoder} {q : List Byte} (h : d.Receives q d') :
    d'.pos + d'.buf.length = d.pos + d.buf.length + q.length := by
  obtain ⟨k, hk, hbuf, hpos⟩ := h
  rw [hbuf, hpos, List.length_drop]
  simp only [List.length_append] at hk ⊢
  omega

/-! The operations on a decoder. -/

theorem Decoder.rxByte_receives (p : CrcParams) (d : Decoder) (b : Byte) : d.Receives [b] (d.rxByte p b).1 :=
  drain_drops p (d.append b)

theorem Decoder.rxPush_receives (p : CrcParams) (d : Decoder) (q : List Byte) : d.Receives q (d.rxPush p q).1 := by
  induction q generalizing d with
  | nil => exact Decoder.Receives.refl d
  | cons b q ih => exact (d.rxByte_receives p b).trans (ih _)

/-- R114: the flush receives nothing, and all of `buf` leaves. -/
theorem Decoder.rxFlush_receives (d : Decoder) : d.Receives [] d.rxFlush.1 :=
  ⟨d.buf.length, by simp [Decoder.rxFlush]⟩

/-! The operations of the block. -/

/-- A receive operation that completes does to the state's decoder what its function does to every decoder. -/
theorem receives_of_receiving {s t : State} {f : Decoder → Decoder × List Event} {q : List Byte}
    (hf : ∀ d : Decoder, d.Receives q (f d).1) (h : receiving s f = .next t) : s.dec.Receives q t.dec := by
  obtain ⟨_, _, rfl⟩ := receiving_eq_next h
  exact hf s.dec

/-- R112 to R114, and R61 for FRAME (log 4): a receive operation gives the decoder exactly its received bytes. -/
theorem exec_receives {i : Instr} {s t : State} (hi : receives i = true) (h : exec i s = .next t) :
    s.dec.Receives (receivedBytes i) t.dec := by
  cases i with
  | frame a l q c => exact receives_of_receiving (fun d => d.rxPush_receives _ _) h
  | rxByte b => exact receives_of_receiving (fun d => d.rxByte_receives _ b) h
  | rxPush q => exact receives_of_receiving (fun d => d.rxPush_receives _ q) h
  | rxFlush => exact receives_of_receiving Decoder.rxFlush_receives h
  | _ => cases hi

/-- An operation that reads `crc_acc` leaves the decoder's registers if its continuation does. -/
theorem dec_of_readingCrc {s t : State} {k : Byte → State} (h : readingCrc s k = .next t)
    (hk : ∀ c, (k c).dec = s.dec ∧ (k c).decoderReady = s.decoderReady) :
    t.dec = s.dec ∧ t.decoderReady = s.decoderReady := by
  obtain ⟨_, rfl⟩ := readingCrc_eq_next h
  exact hk s.crcAcc

/-- R70: an operation that neither receives nor resets the decoder leaves the decoder's registers. -/
theorem exec_dec_of_not_receives {i : Instr} {s t : State} (hi : receives i = false) (hrst : i ≠ .rxRst) (hreset : i ≠ .reset)
    (h : exec i s = .next t) : t.dec = s.dec ∧ t.decoderReady = s.decoderReady := by
  cases i with
  | frame | rxByte | rxPush | rxFlush => cases hi
  | rxRst => exact absurd rfl hrst
  | reset => exact absurd rfl hreset
  | crcUpd b => exact dec_of_readingCrc ((exec_crcUpd s b).symm.trans h) fun _ => ⟨rfl, rfl⟩
  | crcGet => exact dec_of_readingCrc ((exec_crcGet s).symm.trans h) fun _ => ⟨rfl, rfl⟩
  | crcChk c => exact dec_of_readingCrc ((exec_crcChk s c).symm.trans h) fun _ => ⟨rfl, rfl⟩
  | crcClr | crcBlk | txEnc | decode =>
    cases h
    exact ⟨rfl, rfl⟩

/-- Settles O47: a receive operation moves `pos` past the bytes that leave `buf`; the other operations leave the decoder. -/
theorem positionOnlyMovesForward : Obligations.PositionOnlyMovesForward := by
  intro i s t h hrst hreset
  cases hi : receives i with
  | true => exact ⟨(exec_receives hi h).pos_le, nofun⟩
  | false =>
    obtain ⟨hdec, hready⟩ := exec_dec_of_not_receives hi hrst hreset h
    exact ⟨by rw [hdec], fun _ => ⟨hdec, hready⟩⟩

/-- Settles O48: what a receive operation leaves in `buf` is what has not left of the old bytes and the received ones. -/
theorem bufferIsTheUnconsumedTail : Obligations.BufferIsTheUnconsumedTail := by
  intro i s t hi h
  exact ⟨(exec_receives hi h).isSuffix, (exec_receives hi h).pos_add_length⟩

end Sys2Proof.Machine

/-! What an operation leaves unchanged and what every step keeps (spec/10_state.md R27, R28, R30, R33). Then the statements O44, O10,
O46, O2, O3 and O45. -/

namespace Sys2Proof.Machine

/-! The receive operations. -/

/-- R51: how a receive operation stops, its result and the decoder it leaves depend on the decoder's registers alone. -/
theorem receiveView_receiving_congr (s s' : State) (f : Decoder → Decoder × List Event) (hdec : s.dec = s'.dec)
    (hready : s.decoderReady = s'.decoderReady) : receiveView (receiving s f) = receiveView (receiving s' f) := by
  cases hr : s'.decoderReady with
  | false => rw [receiving_unspecified s f (hready.trans hr), receiving_unspecified s' f hr]
  | true =>
    by_cases hi : s'.dec.Inv
    · rw [receiving_next s f (hready.trans hr) (hdec ▸ hi), receiving_next s' f hr hi, hdec]
      rfl
    · rw [receiving_illFormed s f (hready.trans hr) (hdec ▸ hi), receiving_illFormed s' f hr hi]

/-- R112 to R114, and R61 for FRAME (log 4): a receive operation runs a function of the configuration and the decoder, which keeps
INV1 to INV4. -/
theorem exec_eq_receiving {i : Instr} (hi : receives i = true) :
    ∃ f : CrcParams → Decoder → Decoder × List Event,
      (∀ s, exec i s = receiving s (f s.cfg.crc)) ∧ ∀ p (d : Decoder), d.Inv → (f p d).1.Inv := by
  cases i with
  | frame a l q c => exact ⟨_, fun s => exec_frame s a l q c, fun p _ hd => Decoder.rxPush_inv p _ hd⟩
  | rxByte b => exact ⟨_, fun s => exec_rxByte s b, fun p _ hd => Decoder.rxByte_inv p hd b⟩
  | rxPush q => exact ⟨_, fun s => exec_rxPush s q, fun p _ hd => Decoder.rxPush_inv p q hd⟩
  | rxFlush => exact ⟨fun _ => Decoder.rxFlush, exec_rxFlush, fun _ _ => Decoder.rxFlush_inv⟩
  | _ => cases hi

/-- R51: a receive operation that completes leaves all but the decoder and the result. -/
theorem exec_frame_of_receives {i : Instr} {s t : State} (hi : receives i = true) (h : exec i s = .next t) :
    t.crcAcc = s.crcAcc ∧ t.crcReady = s.crcReady ∧ t.cfg = s.cfg ∧ t.requests = s.requests := by
  obtain ⟨f, hf, _⟩ := exec_eq_receiving hi
  obtain ⟨_, _, rfl⟩ := receiving_eq_next (hf s ▸ h)
  exact ⟨rfl, rfl, rfl, rfl⟩

/-! INV1 to INV4. -/

/-- R27 INV2: a buffer between operations is one byte short of the largest frame at most. -/
theorem Decoder.Inv2.buf_length_le {d : Decoder} (h : d.Inv2) : d.buf.length ≤ 258 := by
  have hlen : (d.buf.getD 2 0).toNat < 256 := (d.buf.getD 2 0).isLt
  obtain hshort | hpending := h <;> omega

/-- R27: a receive operation that completes ran in a well-formed decoder state and ends in one. -/
theorem exec_inv_of_receives {i : Instr} {s t : State} (hi : receives i = true) (h : exec i s = .next t) : t.dec.Inv := by
  obtain ⟨f, hf, hkeeps⟩ := exec_eq_receiving hi
  obtain ⟨_, hinv, rfl⟩ := receiving_eq_next (hf s ▸ h)
  exact hkeeps _ _ hinv

theorem exec_rxRst_inv {s t : State} (h : exec .rxRst s = .next t) : t.dec.Inv := by
  cases h
  exact Decoder.empty_inv

theorem exec_reset_inv {s t : State} (h : exec .reset s = .next t) : t.dec.Inv := by
  cases h
  exact Decoder.empty_inv

/-- R27: an operation writes a well-formed decoder state, or leaves the decoder's registers and whether they are specified. -/
theorem exec_keeps_inv {i : Instr} {s t : State} (hs : s.Inv) (h : exec i s = .next t) : t.Inv := by
  intro hready
  cases hi : receives i with
  | true => exact exec_inv_of_receives hi h
  | false =>
    by_cases hrst : i = .rxRst
    · exact exec_rxRst_inv (hrst ▸ h)
    by_cases hreset : i = .reset
    · exact exec_reset_inv (hreset ▸ h)
    obtain ⟨hdec, hsame⟩ := exec_dec_of_not_receives hi hrst hreset h
    exact hdec ▸ hs (hsame ▸ hready)

theorem step_keeps_inv {s t : State} (hs : s.Inv) (h : step s = .next t) : t.Inv := by
  obtain ⟨_, rfl⟩ | ⟨_, rest, _, _, _, hexec⟩ := step_eq_next h
  · exact hs
  · exact exec_keeps_inv (s := { s with requests := rest }) hs hexec

/-- Settles O44: RESET and RX.RST write the empty decoder, and every operation keeps the invariant, so every step does. -/
theorem everyStepKeepsInvariants : Obligations.EveryStepKeepsInvariants :=
  ⟨fun _ _ => exec_reset_inv, fun _ _ => exec_rxRst_inv, fun _ _ _ => exec_keeps_inv, fun _ _ => step_keeps_inv,
    fun _ ⟨_, hinv2, _, _⟩ => hinv2.buf_length_le⟩

/-! The accumulator. -/

/-- R28: an operation is one of the four that write `crc_acc`, or it leaves the register and whether it is specified. -/
theorem exec_writes_crc_or_leaves_it {i : Instr} {s t : State} (h : exec i s = .next t) :
    (i = .crcClr ∨ (∃ b, i = .crcUpd b) ∨ (∃ q, i = .crcBlk q) ∨ i = .reset) ∨
    (t.crcAcc = s.crcAcc ∧ t.crcReady = s.crcReady) := by
  cases i with
  | crcClr => exact .inl (.inl rfl)
  | crcUpd b => exact .inl (.inr (.inl ⟨b, rfl⟩))
  | crcBlk q => exact .inl (.inr (.inr (.inl ⟨q, rfl⟩)))
  | reset => exact .inl (.inr (.inr (.inr rfl)))
  | frame | rxByte | rxPush | rxFlush =>
    obtain ⟨hacc, hready, _, _⟩ := exec_frame_of_receives rfl h
    exact .inr ⟨hacc, hready⟩
  | crcGet | crcChk =>
    simp only [exec_crcGet, exec_crcChk] at h
    obtain ⟨_, rfl⟩ := readingCrc_eq_next h
    exact .inr ⟨rfl, rfl⟩
  | txEnc | rxRst | decode =>
    cases h
    exact .inr ⟨rfl, rfl⟩

/-- R28: only the three operations that read `crc_acc` show its value in how they stop, in their result or in the decoder. -/
theorem receiveView_exec_crcAcc {i : Instr} (s : State) (c : Byte) (hget : i ≠ .crcGet) (hupd : ∀ b, i ≠ .crcUpd b)
    (hchk : ∀ b, i ≠ .crcChk b) : receiveView (exec i { s with crcAcc := c }) = receiveView (exec i s) := by
  cases hi : receives i with
  | true =>
    obtain ⟨f, hf, _⟩ := exec_eq_receiving hi
    rw [hf, hf]
    exact receiveView_receiving_congr { s with crcAcc := c } s _ rfl rfl
  | false =>
    cases i with
    | frame | rxByte | rxPush | rxFlush => cases hi
    | crcGet => exact absurd rfl hget
    | crcUpd b => exact absurd rfl (hupd b)
    | crcChk b => exact absurd rfl (hchk b)
    | reset | crcClr | crcBlk | txEnc | rxRst | decode => rfl

/-- Settles O10: every operation but the four writers leaves `crc_acc`, and only its three readers depend on it. -/
theorem onlyCrcOperationsTouchAccumulator : Obligations.OnlyCrcOperationsTouchAccumulator := by
  refine ⟨fun i s t h hchanged => ?_, fun i s c => receiveView_exec_crcAcc s c⟩
  obtain hwriter | ⟨hacc, hready⟩ := exec_writes_crc_or_leaves_it h
  · exact hwriter
  · exact absurd hchanged (by simp [hacc, hready])

/-! The configuration and the presented operations. -/

/-- R30 (log 1, log 10): an operation leaves the configuration constants and what the host has presented. -/
theorem exec_cfg_requests {i : Instr} {s t : State} (h : exec i s = .next t) : t.cfg = s.cfg ∧ t.requests = s.requests := by
  cases i with
  | frame | rxByte | rxPush | rxFlush =>
    obtain ⟨_, _, hcfg, hreq⟩ := exec_frame_of_receives rfl h
    exact ⟨hcfg, hreq⟩
  | crcUpd | crcGet | crcChk =>
    simp only [exec_crcUpd, exec_crcGet, exec_crcChk] at h
    obtain ⟨_, rfl⟩ := readingCrc_eq_next h
    exact ⟨rfl, rfl⟩
  | reset | crcClr | crcBlk | txEnc | rxRst | decode =>
    cases h
    exact ⟨rfl, rfl⟩

/-- Settles O46: a step with something presented takes the oldest request and runs its operation, which leaves both (log 1, log 10). -/
theorem configurationNeverChanges : Obligations.ConfigurationNeverChanges := by
  refine ⟨fun _ _ _ => exec_cfg_requests, fun s t h => ?_⟩
  obtain ⟨hnone, rfl⟩ | ⟨_, _, _, hpresented, _, hexec⟩ := step_eq_next h
  · exact ⟨rfl, by simp [hnone]⟩
  · obtain ⟨hcfg, hreq⟩ := exec_cfg_requests hexec
    exact ⟨hcfg, by simp [hreq, hpresented]⟩

/-! Reset, and a decoder state that no run reaches. -/

/-- Settles O2: RESET overwrites everything unspecified at power-on (R33, R170; log 1, log 5, log 7, log 10). -/
theorem powerOnThenResetIsStateReset : Obligations.PowerOnThenResetIsStateReset :=
  ⟨exec_reset State.powerOn, rfl, rfl⟩

/-- Settles O3: the decoder after RESET is the empty one, and both specified-value bits are set (log 7). -/
theorem stateResetMeetsInvariants : Obligations.StateResetMeetsInvariants :=
  ⟨fun _ => Decoder.empty_inv, rfl, rfl, Decoder.empty_inv⟩

/-- R27, 93 U5 (log 9, log 4): a receive operation is turned away where INV1 to INV4 do not hold. -/
theorem exec_refused_of_not_inv {i : Instr} {s : State} (hi : receives i = true) (hready : s.decoderReady = true)
    (hbad : ¬ s.dec.Inv) : exec i s = .refused .illFormedDecoder := by
  obtain ⟨f, hf, _⟩ := exec_eq_receiving hi
  exact (hf s).trans (receiving_illFormed s _ hready hbad)

/-- Settles O45: the receive operations are refused, and RX.RST and RESET write the empty decoder. -/
theorem illFormedDecoderIsRefused : Obligations.IllFormedDecoderIsRefused :=
  fun s hready hbad => ⟨fun _ hi => exec_refused_of_not_inv hi hready hbad,
    ⟨_, exec_rxRst s, Decoder.empty_inv⟩, ⟨_, exec_reset s, Decoder.empty_inv⟩⟩

end Sys2Proof.Machine

/-! How the events of the receive path lie on the stream (spec/20_memory.md R49, spec/42_decode.md R120): each begins where the one
before it ends. Then the statements O37, O51, O49, O50, O58 and O59. -/

namespace Sys2Proof.Machine

/-! Events that lie end to end. -/

/-- R49, R120: the events `ev` account for the stream from offset `k` up to offset `n`, each for one byte at least and each beginning
where the one before it ends. -/
def Tiles : Nat → List Event → Nat → Prop
  | k, [], n => n = k
  | k, e :: ev, n => e.offset = k ∧ 1 ≤ e.accounts ∧ Tiles (k + e.accounts) ev n

section Tiles

variable {k n m : Nat} {ev ev' : List Event}

@[simp] theorem tiles_nil : Tiles k [] n ↔ n = k := Iff.rfl

@[simp] theorem tiles_cons {e : Event} :
    Tiles k (e :: ev) n ↔ e.offset = k ∧ 1 ≤ e.accounts ∧ Tiles (k + e.accounts) ev n := Iff.rfl

theorem Tiles.append (h : Tiles k ev n) (h' : Tiles n ev' m) : Tiles k (ev ++ ev') m := by
  induction ev generalizing k with
  | nil => rwa [tiles_nil.mp h] at h'
  | cons e ev ih =>
    obtain ⟨hoffset, hbyte, hrest⟩ := h
    exact ⟨hoffset, hbyte, ih hrest⟩

/-- R120: the events account for all the bytes between the two ends. -/
theorem Tiles.end_eq (h : Tiles k ev n) : n = k + accounted ev := by
  induction ev generalizing k with
  | nil => exact h
  | cons e ev ih =>
    obtain ⟨_, _, hrest⟩ := h
    have := ih hrest
    simp only [accounted, List.map_cons, List.sum_cons] at this ⊢
    omega

theorem Tiles.offset_mem (h : Tiles k ev n) {e : Event} (he : e ∈ ev) : k ≤ e.offset ∧ e.offset < n := by
  induction ev generalizing k with
  | nil => cases he
  | cons e' ev ih =>
    obtain ⟨hoffset, hbyte, hrest⟩ := h
    obtain rfl | he := List.mem_cons.mp he
    · have := hrest.end_eq
      omega
    · obtain ⟨hlow, hhigh⟩ := ih hrest he
      exact ⟨by omega, hhigh⟩

/-- R49: every later event begins after the whole of an earlier one. -/
theorem Tiles.offsets_increase (h : Tiles k ev n) : (ev.map Event.offset).Pairwise (fun a b => a < b) := by
  induction ev generalizing k with
  | nil => exact .nil
  | cons e ev ih =>
    obtain ⟨hoffset, hbyte, hrest⟩ := h
    refine .cons (fun o ho => ?_) (ih hrest)
    obtain ⟨e', he', rfl⟩ := List.mem_map.mp ho
    have := (hrest.offset_mem he').1
    omega

end Tiles

/-! One pass of the loop. -/

/-- R120: the stream offset up to which every byte has been reported: where the counted garbage before `buf` begins. -/
def Decoder.reported (d : Decoder) : Nat := d.pos - d.gcount

@[simp] theorem Decoder.reported_append (d : Decoder) (b : Byte) : (d.append b).reported = d.reported := rfl

@[simp] theorem Decoder.reported_clearGarbage (d : Decoder) : d.clearGarbage.reported = d.pos := rfl

@[simp] theorem Decoder.reported_discardGarbage (d : Decoder) : d.discardGarbage.reported = d.reported := by
  simp [Decoder.reported]

theorem Decoder.reported_drop {d : Decoder} (hg : d.gcount = 0) (j : Nat) : (d.drop j).reported = d.pos + j := by
  simp [Decoder.reported, hg]

/-- The events of a pass, whether the loop stops or goes on. -/
def Pass.events : Pass → List Event
  | .stop _ ev => ev
  | .again _ ev => ev

@[simp] theorem Pass.after_events (raised : List Event) (r : Pass) : (r.after raised).events = raised ++ r.events := by
  cases r <;> rfl

@[simp] theorem Pass.after_decoder (raised : List Event) (r : Pass) : (r.after raised).decoder = r.decoder := by
  cases r <;> rfl

/-- R143: the `Desync` accounts for exactly the counted garbage, and there is none where nothing is counted. -/
theorem Decoder.garbageEvents_tiles {d : Decoder} (h3 : d.gcount ≤ d.pos) : Tiles d.reported d.garbageEvents d.pos := by
  unfold Decoder.garbageEvents
  split
  next hcounted => exact ⟨rfl, hcounted, (Nat.sub_add_cancel h3).symm⟩
  next hnone =>
    simp only [tiles_nil, Decoder.reported]
    omega

/-- R111 steps 6 to 8: the verdict begins at the candidate and accounts for the bytes that leave. -/
theorem judge_tiles (p : CrcParams) {d : Decoder} (hg : d.gcount = 0) (f : Frame) :
    Tiles d.pos (judge p d f).events (judge p d f).decoder.reported := by
  unfold judge
  split
  · exact ⟨rfl, Nat.le_add_right_of_le (by decide), Decoder.reported_drop hg f.size⟩
  · exact ⟨rfl, Nat.le_refl 1, Decoder.reported_drop hg 1⟩

theorem drainPass_tiles (p : CrcParams) {d : Decoder} (h3 : d.gcount ≤ d.pos) :
    Tiles d.reported (drainPass p d).events (drainPass p d).decoder.reported := by
  obtain ⟨_, hpass⟩ | ⟨_, _, _, _, hpass⟩ | ⟨_, _, _, hpass⟩ | ⟨_, _, f, _, _, hpass⟩ := drainPass_cases p d <;> rw [hpass]
  · exact rfl
  · exact d.reported_discardGarbage
  · exact Decoder.garbageEvents_tiles h3
  · rw [Pass.after_events, Pass.after_decoder]
    exact (Decoder.garbageEvents_tiles h3).append (judge_tiles p d.clearGarbage_gcount f)

/-! The loop and the operations on a decoder. -/

theorem drain_tiles (p : CrcParams) {d : Decoder} (h3 : d.gcount ≤ d.pos) : Tiles d.reported (drain p d).2 (drain p d).1.reported := by
  induction d using drain_induction (p := p) with
  | pass d ih =>
    have hpass := drainPass_tiles p h3
    have hkeeps := drainPass_gcount_le_pos (p := p) h3
    cases hp : drainPass p d with
    | stop d' ev =>
      rw [drain_of_stop hp]
      rwa [hp] at hpass
    | again d' ev =>
      rw [hp] at hpass hkeeps
      rw [drain_of_again hp]
      exact hpass.append (ih d' ev hp hkeeps)

theorem Decoder.rxByte_tiles (p : CrcParams) {d : Decoder} (h3 : d.gcount ≤ d.pos) (b : Byte) :
    Tiles d.reported (d.rxByte p b).2 (d.rxByte p b).1.reported :=
  drain_tiles p (d := d.append b) h3

theorem Decoder.rxPush_tiles (p : CrcParams) {d : Decoder} (h3 : d.gcount ≤ d.pos) (q : List Byte) :
    Tiles d.reported (d.rxPush p q).2 (d.rxPush p q).1.reported := by
  induction q generalizing d with
  | nil => exact rfl
  | cons b q ih =>
    have hfirst := drain_gcount_le_pos p (d.append b) h3
    exact (Decoder.rxByte_tiles p h3 b).append (ih hfirst)

/-- R114: the flush accounts for the counted garbage and for all of `buf`. -/
theorem Decoder.rxFlush_tiles {d : Decoder} (h3 : d.gcount ≤ d.pos) : Tiles d.reported d.rxFlush.2 d.rxFlush.1.reported := by
  refine (Decoder.garbageEvents_tiles h3).append ?_
  simp only [Decoder.rxFlush, Decoder.reported_drop d.clearGarbage_gcount, Decoder.clearGarbage_pos]
  unfold Decoder.truncatedEvents
  split
  next hpending => exact ⟨rfl, hpending, rfl⟩
  next hempty =>
    simp only [tiles_nil]
    omega

/-! The operations of the block and their runs. -/

/-- A receive operation that completes reports in the state what its function reports in every decoder with INV3. -/
theorem tiles_of_receiving {s t : State} {f : Decoder → Decoder × List Event}
    (hf : ∀ {d : Decoder}, d.gcount ≤ d.pos → Tiles d.reported (f d).2 (f d).1.reported) (h : receiving s f = .next t) :
    Tiles s.dec.reported t.result.eventList t.dec.reported := by
  obtain ⟨_, ⟨_, _, h3, _⟩, rfl⟩ := receiving_eq_next h
  exact hf h3

/-- R49, R120, as a step: the events of a receive operation lie end to end between the old and the new reported offset. -/
theorem exec_tiles {i : Instr} {s t : State} (hi : receives i = true) (h : exec i s = .next t) :
    Tiles s.dec.reported t.result.eventList t.dec.reported := by
  cases i with
  | frame a l q c => exact tiles_of_receiving (fun h3 => Decoder.rxPush_tiles _ h3 _) h
  | rxByte b => exact tiles_of_receiving (fun h3 => Decoder.rxByte_tiles _ h3 b) h
  | rxPush q => exact tiles_of_receiving (fun h3 => Decoder.rxPush_tiles _ h3 q) h
  | rxFlush => exact tiles_of_receiving Decoder.rxFlush_tiles h
  | _ => cases hi

/-- R191: a run that completes is its first operation and a run of the others from the state that one leaves. -/
theorem runOps_cons_eq_some {i : Instr} {ops : List Instr} {s t : State} {rs : List Result} (h : runOps (i :: ops) s = some (t, rs)) :
    ∃ u rest, exec i s = .next u ∧ runOps ops u = some (t, rest) ∧ rs = u.result :: rest := by
  cases hexec : exec i s with
  | next u =>
    rw [runOps_cons hexec, Option.map_eq_some_iff] at h
    obtain ⟨⟨t', rest⟩, hrun, heq⟩ := h
    obtain ⟨rfl, rfl⟩ := Prod.mk.inj heq
    exact ⟨u, rest, rfl, hrun, rfl⟩
  | fault r => simp [runOps, hexec] at h
  | refused r => simp [runOps, hexec] at h

theorem runOps_tiles {ops : List Instr} {s t : State} {rs : List Result} (hops : ∀ i ∈ ops, receives i = true)
    (h : runOps ops s = some (t, rs)) : Tiles s.dec.reported (eventsOf rs) t.dec.reported := by
  induction ops generalizing s rs with
  | nil =>
    cases h
    exact rfl
  | cons i ops ih =>
    obtain ⟨u, rest, hexec, hrun, rfl⟩ := runOps_cons_eq_some h
    obtain ⟨hi, hrest⟩ := List.forall_mem_cons.mp hops
    exact (exec_tiles hi hexec).append (ih hrest hrun)

/-- Settles O37: the events of a run lie end to end on the stream, and each accounts for a byte at least (log 4). -/
theorem eventOffsetsStrictlyIncrease : Obligations.EventOffsetsStrictlyIncrease :=
  fun _ _ _ _ _ _ hops hrun => (runOps_tiles hops hrun).offsets_increase

/-! Every operation runs. -/

/-- R47, R70: with specified, well-formed registers every operation completes, and the registers still hold specified values. -/
theorem exec_completes (i : Instr) {s : State} (hs : s.Operational) :
    ∃ t, exec i s = .next t ∧ t.decoderReady = s.decoderReady ∧ t.crcReady = s.crcReady := by
  obtain ⟨hdec, hcrc, hinv⟩ := hs
  cases hi : receives i with
  | true =>
    obtain ⟨f, hf, _⟩ := exec_eq_receiving hi
    exact ⟨_, (hf s).trans (receiving_next s _ hdec hinv), rfl, rfl⟩
  | false =>
    cases i with
    | frame | rxByte | rxPush | rxFlush => cases hi
    | crcUpd b => exact ⟨_, (exec_crcUpd s b).trans (readingCrc_next s _ hcrc), rfl, hcrc.symm⟩
    | crcGet => exact ⟨_, (exec_crcGet s).trans (readingCrc_next s _ hcrc), rfl, rfl⟩
    | crcChk c => exact ⟨_, (exec_crcChk s c).trans (readingCrc_next s _ hcrc), rfl, rfl⟩
    | reset => exact ⟨_, exec_reset s, hdec.symm, hcrc.symm⟩
    | rxRst => exact ⟨_, exec_rxRst s, hdec.symm, rfl⟩
    | crcClr => exact ⟨_, exec_crcClr s, rfl, hcrc.symm⟩
    | crcBlk q => exact ⟨_, exec_crcBlk s q, rfl, hcrc.symm⟩
    | txEnc | decode => exact ⟨_, rfl, rfl, rfl⟩

/-- Settles O51: the operation completes and leaves the configuration, the requests and the two specified-value bits. -/
theorem everyOperationCompletes : Obligations.EveryOperationCompletes := by
  intro i s hs
  obtain ⟨t, hexec, hdec, hcrc⟩ := exec_completes i hs
  obtain ⟨hcfg, hreq⟩ := exec_cfg_requests hexec
  refine ⟨t.dec, t.crcAcc, t.result, ?_⟩
  rw [hexec, ← hdec, ← hcrc, ← hcfg, ← hreq]

/-! What an operation depends on, and the operations that only read. -/

/-- Settles O49: a receive operation runs a function of the configuration on the decoder, and DECODE reads the configuration only. -/
theorem receivePathIsIndependent : Obligations.ReceivePathIsIndependent := by
  rintro i s s' (hi | ⟨q, rfl⟩) hdec hready hcfg
  · obtain ⟨f, hf, _⟩ := exec_eq_receiving hi
    rw [hf, hf, hcfg]
    exact receiveView_receiving_congr s s' _ hdec hready
  · rw [exec_decode, exec_decode, hcfg]
    simp only [receiveView, hdec]

/-- R48: an operation that returns a result computed from the configuration and `crc_acc`. -/
theorem exec_idempotent_of_readingCrc {i : Instr} {s t : State} (g : CrcParams → Byte → Result)
    (hi : ∀ s, exec i s = readingCrc s (fun acc => s.returning (g s.cfg.crc acc))) (h : exec i s = .next t) :
    t = { s with result := t.result } ∧ exec i t = .next t := by
  obtain ⟨hcrc, rfl⟩ := readingCrc_eq_next (hi s ▸ h)
  exact ⟨rfl, (hi _).trans (readingCrc_next _ _ hcrc)⟩

/-- Settles O50: the four operations write the result alone and do not read it. -/
theorem readOnlyOperationsAreIdempotent : Obligations.ReadOnlyOperationsAreIdempotent := by
  rintro i s t (⟨a, q, rfl⟩ | rfl | ⟨c, rfl⟩ | ⟨q, rfl⟩) h
  · cases h
    exact ⟨rfl, rfl⟩
  · exact exec_idempotent_of_readingCrc (fun p acc => .byte (crc8Fin p acc)) exec_crcGet h
  · exact exec_idempotent_of_readingCrc (fun p acc => .bool (crc8Fin p acc == c)) (exec_crcChk · c) h
  · cases h
    exact ⟨rfl, rfl⟩

/-! One step. -/

theorem takeRequest_of_cons {s : State} {r : Request} {rest : List Request} (h : s.requests = r :: rest) :
    s.takeRequest = some (r, { s with requests := rest }) := by
  simp [State.takeRequest, h]

theorem takeRequest_of_nil {s : State} (h : s.requests = []) : s.takeRequest = none := by
  simp [State.takeRequest, h]

/-- Settles O58: the oldest request is the one taken, and its decoding says what the step does (log 1, log 2). -/
theorem stepRunsTheOldestRequest : Obligations.StepRunsTheOldestRequest := by
  intro s r rest hreq
  have htake := takeRequest_of_cons hreq
  exact ⟨fun i hdecode => by simp [step, htake, hdecode], fun why hdecode => by simp [step, htake, hdecode]⟩

/-- Settles O59: there is no request to take (log 14). -/
theorem nothingPresentedNothingHappens : Obligations.NothingPresentedNothingHappens := by
  intro s hreq
  simp [step, takeRequest_of_nil hreq]

end Sys2Proof.Machine

/-! Packing and unpacking a frame, decoding and encoding a request (spec/30_encoding.md R61, R66, R70). Then the statements O54, O55,
O16, O43, O56 and O57. -/

namespace Sys2Proof.Machine

/-! One frame's bytes. -/

/-- R66: a sequence unpacks to the record that packs to it, where its length byte counts its payload. -/
theorem unpack?_eq_some {s : List Byte} {f : Frame} : unpack? s = some f ↔ f.payload.length = f.length.toNat ∧ s = f.pack := by
  have hexact : unpack? s = some f ↔ parseFrame? s = some (f, []) := by
    unfold unpack?
    split
    next hparse => simp [hparse]
    next hrest => exact ⟨nofun, fun hparse => absurd hparse (hrest f)⟩
  rw [hexact, parseFrame?_eq_some, List.append_nil]

/-- R61: a wire frame decodes as it unpacks; its marker is not among the operands. -/
theorem decodeFrame_eq_ok {bytes : List Byte} {i : Instr} :
    decodeFrame bytes = .ok i ↔ ∃ f, unpack? bytes = some f ∧ i = .frame f.address f.length f.payload f.checksum := by
  unfold decodeFrame unpack?
  obtain _ | ⟨f, _ | ⟨b, after⟩⟩ := parseFrame? bytes
  · simp
  · simp [eq_comm]
  · simp

/-! The bytes of a request. -/

/-- R70: an operation in coded form decodes to the instruction that its select code and operand bytes encode. -/
theorem decodeOperation_eq_ok {b : Byte} {operands : List Byte} {i : Instr} (hb : b ≠ marker) :
    decodeOperation b operands = .ok i ↔ encodeBytes i = some (b :: operands) := by
  constructor
  · intro h
    have hcode : b = BitVec.ofNat 8 b.toNat := by simp
    unfold decodeOperation at h
    split at h
    case h_10 => split at h <;> cases h
    all_goals
      next hselect =>
        cases h
        rw [hcode, hselect]
        rfl
  · intro h
    cases i with
    | frame a l q c => exact absurd (List.head_eq_of_cons_eq (Option.some.inj h)).symm hb
    | crcBlk | rxPush | decode => cases h
    | _ =>
      cases h
      rfl

/-- R70, 93 U9: no operation has a select code above 0x8. -/
theorem decodeOperation_unassigned {b : Byte} (operands : List Byte) (hb : 8 < b.toNat) :
    decodeOperation b operands = .error (.noSuchOperation b) := by
  unfold decodeOperation
  split
  case h_10 => exact if_neg (Nat.not_le.mpr hb)
  all_goals omega

/-- R61: a wire frame decodes to the well-formed FRAME that its bytes encode, if its first byte is the marker. -/
theorem decodeFrame_marker_eq_ok {q : List Byte} {i : Instr} :
    decodeFrame (marker :: q) = .ok i ↔ i.wellFormed = true ∧ encodeBytes i = some (marker :: q) := by
  rw [decodeFrame_eq_ok]
  constructor
  · rintro ⟨f, hf, rfl⟩
    obtain ⟨hlength, hpack⟩ := unpack?_eq_some.mp hf
    have hmarker : f.marker = marker := (List.head_eq_of_cons_eq (hpack.trans f.pack_eq)).symm
    exact ⟨beq_iff_eq.mpr hlength, congrArg some (by rw [hpack, ← hmarker])⟩
  · rintro ⟨hwf, hbytes⟩
    cases i with
    | frame a l payload c =>
      exact ⟨⟨marker, a, l, payload, c⟩, unpack?_eq_some.mpr ⟨beq_iff_eq.mp hwf, (Option.some.inj hbytes).symm⟩, rfl⟩
    | crcBlk | rxPush | decode => cases hbytes
    | _ => exact absurd (List.head_eq_of_cons_eq (Option.some.inj hbytes)) (by decide)

theorem encodeBytes_ne_nil (i : Instr) : encodeBytes i ≠ some [] := by
  cases i <;> exact nofun

/-- R61, R70: what the bytes of a request decode to is the one well-formed instruction that encodes to them. -/
theorem decodeBytes_eq_ok {bytes : List Byte} {i : Instr} :
    decodeBytes bytes = .ok i ↔ i.wellFormed = true ∧ encodeBytes i = some bytes := by
  match bytes with
  | [] => exact ⟨nofun, fun ⟨_, hnil⟩ => absurd hnil (encodeBytes_ne_nil i)⟩
  | b :: rest =>
    by_cases hb : b = marker
    · subst hb
      rw [decodeBytes, if_pos rfl, decodeFrame_marker_eq_ok]
    · rw [decodeBytes, if_neg hb, decodeOperation_eq_ok hb]
      refine ⟨fun hbytes => ⟨?_, hbytes⟩, And.right⟩
      cases i with
      | frame a l q c => exact absurd (List.head_eq_of_cons_eq (Option.some.inj hbytes)).symm hb
      | _ => rfl

/-- Settles O54: an instruction with bytes is decoded from them, and a pseudo-operation goes by name (log 2, log 3). -/
theorem decodeEncodeRoundTrip : Obligations.DecodeEncodeRoundTrip := by
  intro i hwf
  unfold encodeRequest
  cases hbytes : encodeBytes i with
  | some bytes => exact decodeBytes_eq_ok.mpr ⟨hwf, hbytes⟩
  | none => exact if_pos hwf

/-- Settles O55: the same equivalence, read from the bytes (log 2). -/
theorem decodedBytesEncodeBack : Obligations.DecodedBytesEncodeBack :=
  fun _ _ => decodeBytes_eq_ok.mp

/-! Frame records and `is_frame`. -/

theorem getD_two_pack_append (f : Frame) (rest : List Byte) : (f.pack ++ rest).getD 2 0 = f.length := by
  rw [Frame.pack_eq]
  rfl

/-- R60, R66: a packed record whose length byte counts its payload satisfies `is_frame` exactly when it is valid. -/
theorem isFrame_pack {p : CrcParams} {f : Frame} (hl : f.payload.length = f.length.toNat) :
    IsFrame p f.pack ↔ FrameValid p f := by
  have hhead : f.pack.head? = some f.marker := by rw [Frame.pack_eq]; rfl
  have hthird : f.pack.getD 2 0 = f.length := by simpa using getD_two_pack_append f []
  have hlast : f.pack.getLast? = some f.checksum := List.getLast?_concat
  have hbody : f.pack.dropLast = f.body := List.dropLast_concat
  rw [IsFrame, hhead, hthird, hlast, hbody]
  simp [FrameValid, hl]

/-- R66: a sequence that satisfies `is_frame` is one frame's bytes, exactly. -/
theorem IsFrame.exists_unpack {p : CrcParams} {s : List Byte} (h : IsFrame p s) : ∃ f, unpack? s = some f := by
  obtain ⟨hmin, _, hsize, _⟩ := h
  cases hparse : parseFrame? s with
  | none =>
    obtain hshort | hshort := parseFrame?_eq_none.mp hparse <;> omega
  | some fr =>
    obtain ⟨f, rest⟩ := fr
    obtain ⟨hl, rfl⟩ := parseFrame?_eq_some.mp hparse
    have hrest : rest = [] := by
      rw [getD_two_pack_append, List.length_append, Frame.pack_length] at hsize
      exact List.eq_nil_of_length_eq_zero (by omega)
    exact ⟨f, unpack?_eq_some.mpr ⟨hl, by rw [hrest, List.append_nil]⟩⟩

/-- Settles O16: between a record and the bytes it packs to, `is_frame` is the record's validity. -/
theorem packAndUnpackAreInverse : Obligations.PackAndUnpackAreInverse := by
  refine fun p => ⟨fun f hf => ?_, fun s hs => ?_⟩
  · have ⟨_, hl, _⟩ := hf
    exact ⟨(isFrame_pack hl).mpr hf, unpack?_eq_some.mpr ⟨hl, rfl⟩⟩
  · obtain ⟨f, hf⟩ := hs.exists_unpack
    obtain ⟨hl, rfl⟩ := unpack?_eq_some.mp hf
    exact ⟨f, hf, (isFrame_pack hl).mp hs, rfl⟩

/-! A frame that arrives. -/

/-- R111 step 8, nothing counted: of a candidate with another checksum only the marker leaves, and it is reported first. -/
theorem drain_corrupt {p : CrcParams} {d : Decoder} {f : Frame} {rest : List Byte} (hg : d.gcount = 0) (hm : f.marker = marker)
    (hl : f.payload.length = f.length.toNat) (hc : f.checksum ≠ frameCrc p f.body) (hb : d.buf = f.pack ++ rest) :
    drain p d = ((drain p (d.clearGarbage.drop 1)).1,
      .checksumError d.pos f.address f.length (frameCrc p f.body) f.checksum :: (drain p (d.clearGarbage.drop 1)).2) := by
  have hparse : parseFrame? d.buf = some (f, rest) := by rw [hb, parseFrame?_pack_append f rest hl]
  have hjudge : judge p d.clearGarbage f = .again (d.clearGarbage.drop 1)
      [.checksumError d.pos f.address f.length (frameCrc p f.body) f.checksum] :=
    if_neg (by simpa [crcOk] using hc.symm)
  have hpass := drainPass_judge (p := p) (q := d.buf.drop 1) (by simp [hb, Frame.pack_eq, hm]) hparse
  have hquiet : d.garbageEvents = [] := by simp [Decoder.garbageEvents, hg]
  rw [hjudge, hquiet] at hpass
  exact drain_of_again hpass

/-- R61, R67, R113: a whole frame pushed on a clean decoder is judged as the loop judges its bytes. -/
theorem Decoder.rxPush_pack_of_clean (p : CrcParams) {d : Decoder} {f : Frame} (hd : d.Clean) (hm : f.marker = marker)
    (hl : f.payload.length = f.length.toNat) : d.rxPush p f.pack = drain p { d with buf := f.pack, gcount := 0 } := by
  obtain ⟨hempty, hg⟩ := hd
  rw [Decoder.rxPush_pack p hempty hl hm]
  simp [Decoder.garbageEvents, hg]

/-- R61, R111 step 7: a valid frame on a clean decoder is delivered and leaves the decoder clean, past the frame. -/
theorem Decoder.rxPush_pack_valid {p : CrcParams} {d : Decoder} {f : Frame} (hd : d.Clean) (hf : FrameValid p f) :
    d.rxPush p f.pack = ({ buf := [], pos := d.pos + f.size, gcount := 0 },
      [.frame d.pos f.address f.length f.payload f.checksum]) := by
  have ⟨hm, hl, _⟩ := hf
  rw [Decoder.rxPush_pack_of_clean p hd hm hl, drain_good rfl hf (List.append_nil _).symm, drain_nil rfl]

/-- R61, R111 step 8: a frame with another checksum on a clean decoder is reported before anything else. -/
theorem Decoder.rxPush_pack_corrupt {p : CrcParams} {d : Decoder} {f : Frame} (hd : d.Clean) (hm : f.marker = marker)
    (hl : f.payload.length = f.length.toNat) (hc : f.checksum ≠ frameCrc p f.body) :
    ∃ ev, (d.rxPush p f.pack).2 = .checksumError d.pos f.address f.length (frameCrc p f.body) f.checksum :: ev := by
  rw [Decoder.rxPush_pack_of_clean p hd hm hl, drain_corrupt rfl hm hl hc (List.append_nil _).symm]
  exact ⟨_, rfl⟩

/-- Settles O43: FRAME is the push of the packed record's bytes (log 4, log 7, log 8). -/
theorem frameArrivesAsItsBytes : Obligations.FrameArrivesAsItsBytes := by
  intro a l c q s
  let f : Frame := ⟨marker, a, l, q, c⟩
  refine ⟨fun hunset => (exec_frame s a l q c).trans (receiving_unspecified s _ hunset), fun hready hinv => ?_⟩
  have hnext := receiving_next s (fun d => d.rxPush s.cfg.crc f.pack) hready hinv
  refine ⟨⟨_, hnext, hnext⟩, fun hclean hl hc => ?_, fun hclean hl hc => ?_⟩
  · rw [Decoder.rxPush_pack_valid (f := f) hclean ⟨rfl, hl, hc⟩] at hnext
    exact hnext
  · obtain ⟨ev, hev⟩ := Decoder.rxPush_pack_corrupt (f := f) hclean rfl hl hc
    exact ⟨_, ev, hnext, congrArg Result.events hev⟩

/-! Written-out words and unassigned codes. -/

/-- Settles O56: each word evaluates (R61, R70; log 2). -/
theorem writtenOutWordsDecode : Obligations.WrittenOutWordsDecode :=
  ⟨rfl, rfl, rfl, rfl, rfl⟩

/-- Settles O57: the byte names no operation, and the step refuses its request with the decoder's reason (log 2). -/
theorem unassignedSelectIsRefused : Obligations.UnassignedSelectIsRefused := by
  intro b operands rest s hmarker hb hreq
  obtain ⟨_, hrefused⟩ := stepRunsTheOldestRequest s _ rest hreq
  exact hrefused _ ((if_neg hmarker).trans (decodeOperation_unassigned operands hb))

end Sys2Proof.Machine

/-! The CRC8 functions (spec/40_crc8.md R80 to R84, R90 to R95): linearity, what the passes of the loop keep of a register, one
inverted bit, the residue, the table, and the two byte ranges. Then the statements O12, O13, O14, O15 and O11. -/

namespace Sys2Proof.Machine

/-! Linearity. -/

/-- R92: the step is linear in the register and the byte together. -/
theorem crc8Step_xor (p : CrcParams) (c₁ c₂ b₁ b₂ : Byte) :
    crc8Step p (c₁ ^^^ c₂) (b₁ ^^^ b₂) = crc8Step p c₁ b₁ ^^^ crc8Step p c₂ b₂ := by
  have hregroup : c₁ ^^^ c₂ ^^^ crcInput p (b₁ ^^^ b₂) = (c₁ ^^^ crcInput p b₁) ^^^ (c₂ ^^^ crcInput p b₂) := by
    rw [crcInput_xor]
    ac_rfl
  rw [crc8Step, hregroup, crcShifts_xor]
  rfl

/-- R95: from a register of zero the data byte alone goes through the passes. -/
theorem crc8Step_zero_left (p : CrcParams) (b : Byte) : crc8Step p 0#8 b = crcShifts p.poly 8 (crcInput p b) := by
  rw [crc8Step, BitVec.zero_xor]

/-- R86: with a zero byte the register alone goes through the passes. -/
theorem crc8Step_zero_right (p : CrcParams) (c : Byte) : crc8Step p c 0#8 = crcShifts p.poly 8 c := by
  rw [crc8Step, crcInput_zero, BitVec.xor_zero]

/-- R92: the register is linear in its start and in sequences of equal length together. -/
theorem crcReg_xor (p : CrcParams) {s t : List Byte} (hlen : s.length = t.length) (c₁ c₂ : Byte) :
    crcReg p c₁ s ^^^ crcReg p c₂ t = crcReg p (c₁ ^^^ c₂) (List.zipWith (fun a b => a ^^^ b) s t) := by
  induction s generalizing t c₁ c₂ with
  | nil =>
    obtain rfl := List.length_eq_zero_iff.mp hlen.symm
    rfl
  | cons a s ih =>
    obtain ⟨b, t, rfl⟩ := List.exists_cons_of_length_eq_add_one hlen.symm
    simp only [crcReg_cons, List.zipWith_cons_cons, crc8Step_xor]
    exact ih (Nat.succ.inj hlen) _ _

/-- Settles O12: two equal starts cancel. -/
theorem crcStepIsLinear : Obligations.CrcStepIsLinear := by
  refine ⟨crc8Step_xor, fun p c s t hlen => ?_⟩
  rw [crcReg_xor p hlen, BitVec.xor_self]
  rfl

/-! The passes of the loop. -/

theorem crcShifts_add (poly : Byte) (m n : Nat) (c : Byte) :
    crcShifts poly (m + n) c = crcShifts poly n (crcShifts poly m c) := by
  induction m generalizing c with
  | zero => rw [Nat.zero_add]; rfl
  | succ m ih => rw [Nat.succ_add]; exact ih _

/-- R80: bit `i` after one pass is bit `i - 1` before it, with the polynomial's bit added where bit 7 leaves. -/
theorem crcShift_getLsbD (poly c : Byte) {i : Nat} (hi : i < 8) :
    (crcShift poly c).getLsbD i = ((decide (1 ≤ i) && c.getLsbD (i - 1)) ^^ (c.msb && poly.getLsbD i)) := by
  have hshifted : (c <<< 1).getLsbD i = (decide (1 ≤ i) && c.getLsbD (i - 1)) := by
    rw [BitVec.getLsbD_shiftLeft, decide_eq_true hi, Bool.true_and, ← decide_not]
    simp only [Nat.not_lt]
  rw [← hshifted, crcShift]
  cases c.msb <;> simp

/-- Read as a polynomial in `x` (R8), the byte is a nonzero multiple of `x ^ k`: none of its bits below `k` is set. -/
def NonzeroMultiple (k : Nat) (c : Byte) : Prop := c ≠ 0 ∧ ∀ i < k, c.getLsbD i = false

/-- Bit `k` is the lowest set bit of the polynomial. -/
def LowestBit (poly : Byte) (k : Nat) : Prop := poly.getLsbD k = true ∧ ∀ i < k, poly.getLsbD i = false

theorem exists_lowestBit {poly : Byte} (h : poly ≠ 0) : ∃ k, LowestBit poly k := by
  have hset : ∃ k, poly.getLsbD k = true := by
    by_contra hnone
    exact h (BitVec.eq_of_getLsbD_eq fun i _ => by simpa using fun hi => hnone ⟨i, hi⟩)
  exact ⟨Nat.find hset, Nat.find_spec hset, fun i hi => by simpa using Nat.find_min hset hi⟩

theorem LowestBit.lt {poly : Byte} {k : Nat} (h : LowestBit poly k) : k < 8 := BitVec.lt_of_getLsbD h.1

theorem LowestBit.nonzeroMultiple {poly : Byte} {k : Nat} (h : LowestBit poly k) : NonzeroMultiple k poly := by
  obtain ⟨hbit, hlow⟩ := h
  refine ⟨fun hzero => ?_, hlow⟩
  simp [hzero] at hbit

/-- A pass that does not add the polynomial loses no bit. -/
theorem crcShift_ne_zero_of_msb_false {poly c : Byte} (hmsb : c.msb = false) (hc : c ≠ 0) : crcShift poly c ≠ 0 := by
  intro hzero
  refine hc (BitVec.eq_of_getLsbD_eq fun i hi => ?_)
  by_cases h7 : i = 7
  · subst h7
    simpa [BitVec.msb_eq_getLsbD_last] using hmsb
  · have hbit := crcShift_getLsbD poly c (show i + 1 < 8 by omega)
    simpa [hzero, hmsb] using hbit.symm

/-- One pass keeps the nonzero multiples of the polynomial's lowest power: if it adds the polynomial, the lowest bit of that is set
afterwards. -/
theorem crcShift_nonzeroMultiple {poly c : Byte} {k : Nat} (hk : LowestBit poly k) (hc : NonzeroMultiple k c) :
    NonzeroMultiple k (crcShift poly c) := by
  obtain ⟨hne, hlow⟩ := hc
  have hbits : ∀ i ≤ k, (crcShift poly c).getLsbD i = (c.msb && poly.getLsbD i) := by
    intro i hi
    have hmoved : (decide (1 ≤ i) && c.getLsbD (i - 1)) = false := by
      by_cases h1 : 1 ≤ i
      · simp [hlow (i - 1) (by omega)]
      · simp [h1]
    rw [crcShift_getLsbD poly c (hi.trans_lt hk.lt), hmoved, Bool.false_xor]
  refine ⟨?_, fun i hi => by rw [hbits i hi.le, hk.2 i hi, Bool.and_false]⟩
  cases hmsb : c.msb with
  | false => exact crcShift_ne_zero_of_msb_false hmsb hne
  | true =>
    intro hzero
    have hset := hbits k le_rfl
    simp [hzero, hmsb, hk.1] at hset

theorem crcShifts_nonzeroMultiple {poly : Byte} {k : Nat} (hk : LowestBit poly k) (n : Nat) {c : Byte}
    (hc : NonzeroMultiple k c) : NonzeroMultiple k (crcShifts poly n c) := by
  induction n generalizing c with
  | zero => exact hc
  | succ n ih => exact ih (crcShift_nonzeroMultiple hk hc)

/-! One inverted bit (R93). -/

/-- A single bit moves up until it leaves at bit 7, where the polynomial comes in. -/
theorem crcShifts_singleBit (poly : Byte) {j : Nat} (hj : j < 8) : crcShifts poly (8 - j) (1#8 <<< j) = poly := by
  interval_cases j <;> simp [crcShifts, crcShift, BitVec.msb_eq_getLsbD_last]

/-- A register that holds a single bit never becomes zero, however many passes follow. -/
theorem crcShifts_singleBit_ne_zero {poly : Byte} (hpoly : poly ≠ 0) (n : Nat) {j : Nat} (hj : j < 8) :
    crcShifts poly n (1#8 <<< j) ≠ 0 := by
  intro hzero
  obtain ⟨k, hk⟩ := exists_lowestBit hpoly
  obtain ⟨hne, _⟩ := crcShifts_nonzeroMultiple hk n hk.nonzeroMultiple
  apply hne
  calc crcShifts poly n poly = crcShifts poly (8 - j + n) (1#8 <<< j) := by rw [crcShifts_add, crcShifts_singleBit poly hj]
    _ = crcShifts poly (8 - j) (crcShifts poly n (1#8 <<< j)) := by rw [Nat.add_comm, crcShifts_add]
    _ = 0 := by rw [hzero]; exact crcShifts_zero poly _

theorem crcInput_singleBit (p : CrcParams) {k : Nat} (hk : k < 8) : ∃ j < 8, crcInput p (1#8 <<< k) = 1#8 <<< j := by
  unfold crcInput
  split
  · exact ⟨7 - k, by omega, by interval_cases k <;> decide⟩
  · exact ⟨k, hk, rfl⟩

/-- R92: the difference of two registers goes through the passes of the bytes that follow, whatever these are. -/
theorem crcReg_xor_crcReg (p : CrcParams) (s : List Byte) (c₁ c₂ : Byte) :
    crcReg p c₁ s ^^^ crcReg p c₂ s = crcShifts p.poly (8 * s.length) (c₁ ^^^ c₂) := by
  induction s generalizing c₁ c₂ with
  | nil => rfl
  | cons b s ih =>
    have hstep : crc8Step p c₁ b ^^^ crc8Step p c₂ b = crcShifts p.poly 8 (c₁ ^^^ c₂) := by
      rw [← crc8Step_xor, BitVec.xor_self, crc8Step_zero_right]
    rw [crcReg_cons, crcReg_cons, ih, hstep, ← crcShifts_add, List.length_cons, Nat.mul_succ, Nat.add_comm]

@[simp] theorem flipBit_cons_zero (b : Byte) (s : List Byte) (k : Nat) : flipBit (b :: s) 0 k = (b ^^^ 1#8 <<< k) :: s := rfl

@[simp] theorem flipBit_cons_succ (b : Byte) (s : List Byte) (i k : Nat) :
    flipBit (b :: s) (i + 1) k = b :: flipBit s i k := by
  simp [flipBit]

theorem flipBit_append_left {s : List Byte} {i : Nat} (hi : i < s.length) (t : List Byte) (k : Nat) :
    flipBit (s ++ t) i k = flipBit s i k ++ t := by
  simp [flipBit, List.set_append_left _ _ hi, List.getElem?_append_left hi]

theorem flipBit_concat_last (s : List Byte) (c : Byte) (k : Nat) :
    flipBit (s ++ [c]) s.length k = s ++ [c ^^^ 1#8 <<< k] := by
  simp [flipBit]

theorem flipBit_drop {n i : Nat} (h : n ≤ i) (s : List Byte) (k : Nat) :
    (flipBit s i k).drop n = flipBit (s.drop n) (i - n) k := by
  simp [flipBit, List.drop_set, Nat.not_lt.mpr h, Nat.add_sub_cancel' h]

/-- R93: what one inverted bit changes in the register: the bit as it enters, through the passes of its byte and all later ones. -/
theorem crcReg_flipBit (p : CrcParams) (k : Nat) {s : List Byte} {i : Nat} (hi : i < s.length) (c : Byte) :
    crcReg p c (flipBit s i k) ^^^ crcReg p c s = crcShifts p.poly (8 * (s.length - i)) (crcInput p (1#8 <<< k)) := by
  induction s generalizing i c with
  | nil => exact absurd hi (Nat.not_lt_zero i)
  | cons b s ih =>
    cases i with
    | zero =>
      have hstep : crc8Step p c (b ^^^ 1#8 <<< k) ^^^ crc8Step p c b = crcShifts p.poly 8 (crcInput p (1#8 <<< k)) := by
        rw [← crc8Step_xor, BitVec.xor_self, BitVec.xor_comm b, BitVec.xor_assoc, BitVec.xor_self, BitVec.xor_zero,
          crc8Step_zero_left]
      rw [flipBit_cons_zero, crcReg_cons, crcReg_cons, crcReg_xor_crcReg, hstep, ← crcShifts_add, Nat.sub_zero, List.length_cons,
        Nat.mul_succ, Nat.add_comm]
    | succ i =>
      rw [flipBit_cons_succ, crcReg_cons, crcReg_cons, ih (Nat.lt_of_succ_lt_succ hi), List.length_cons, Nat.add_sub_add_right]

theorem crc8Fin_injective (p : CrcParams) : Function.Injective (crc8Fin p) := by
  intro a b h
  have h : (if p.refout then rev8 a else a) = (if p.refout then rev8 b else b) := (BitVec.xor_left_inj p.xorout).mp h
  split at h
  · exact (rev8_rev8 a).symm.trans ((congrArg rev8 h).trans (rev8_rev8 b))
  · exact h

theorem crc8_flipBit_ne (p : CrcParams) {s : List Byte} {i k : Nat} (hpoly : p.poly ≠ 0) (hi : i < s.length) (hk : k < 8) :
    crc8 p (flipBit s i k) ≠ crc8 p s := by
  intro h
  obtain ⟨j, hj, hinput⟩ := crcInput_singleBit p hk
  have hdiff := crcReg_flipBit p k hi p.init
  rw [crc8Fin_injective p h, BitVec.xor_self, hinput] at hdiff
  exact crcShifts_singleBit_ne_zero hpoly _ hj hdiff.symm

/-- R93: a bit of the body behind the marker is covered by the checksum in either byte range. -/
theorem frameCrc_flipBit_ne (p : CrcParams) {body : List Byte} {i k : Nat} (hpoly : p.poly ≠ 0) (h1 : 1 ≤ i)
    (hi : i < body.length) (hk : k < 8) : frameCrc p (flipBit body i k) ≠ frameCrc p body := by
  have hstart : p.start.val ≤ i := by omega
  rw [frameCrc, flipBit_drop hstart]
  exact crc8_flipBit_ne p hpoly (by rw [List.length_drop]; omega) hk

/-- R93: a valid frame with one bit behind its marker inverted fails `crc_ok`: in the body the computed checksum changes, in the
last byte the received one. -/
theorem crcOk_flipBit_pack {p : CrcParams} {f : Frame} {i k : Nat} (hpoly : p.poly ≠ 0) (hf : FrameValid p f) (h1 : 1 ≤ i)
    (hi : i < f.pack.length) (hk : k < 8) :
    crcOk p (flipBit f.pack i k).dropLast ((flipBit f.pack i k).getLastD 0) = false := by
  obtain ⟨_, _, hchecksum⟩ := hf
  rw [crcOk, beq_eq_false_iff_ne, Frame.pack]
  by_cases hbody : i < f.body.length
  · rw [flipBit_append_left hbody, List.dropLast_concat, List.getLastD_concat, hchecksum]
    exact frameCrc_flipBit_ne p hpoly h1 hbody hk
  · have hlast : i = f.body.length := by
      rw [Frame.pack_length] at hi
      rw [Frame.body_length] at hbody ⊢
      omega
    rw [hlast, flipBit_concat_last, List.dropLast_concat, List.getLastD_concat, hchecksum]
    intro hsame
    exact crcShifts_singleBit_ne_zero hpoly 0 hk ((BitVec.xor_right_inj _).mp (hsame.symm.trans BitVec.xor_zero.symm))

/-- R93: without a polynomial the passes only shift. -/
theorem crcShifts_of_poly_zero (n : Nat) (c : Byte) : crcShifts 0 n c = c <<< n := by
  induction n generalizing c with
  | zero => exact (BitVec.shiftLeft_zero c).symm
  | succ n ih =>
    have hpass : crcShift 0 c = c <<< 1 := by simp [crcShift]
    rw [crcShifts, hpass, ih, Nat.add_comm, BitVec.shiftLeft_add]

theorem crc8_of_poly_zero {p : CrcParams} (hpoly : p.poly = 0) {s : List Byte} (hs : s ≠ []) : crc8 p s = crc8Fin p 0 := by
  have hstep : ∀ c b, crc8Step p c b = 0 := by
    intro c b
    rw [crc8Step, hpoly, crcShifts_of_poly_zero, BitVec.shiftLeft_eq_zero le_rfl]
    rfl
  rw [crc8, ← List.dropLast_append_getLast hs, crcReg_append, crcReg_cons, hstep]
  rfl

/-- Settles O13: the difference that one bit makes goes through the passes that follow, and none of them loses it. -/
theorem crcDetectsEverySingleBit : Obligations.CrcDetectsEverySingleBit := by
  exact ⟨fun p s i k => crc8_flipBit_ne p, fun p f i k hpoly hf hpos => crcOk_flipBit_pack hpoly hf (by omega),
    fun p s hpoly => crc8_of_poly_zero hpoly⟩

/-! The residue (R94). -/

/-- R94: where nothing is xored out and the reflections agree, a checksum enters the register as the register it was taken from. -/
theorem crcInput_crc8Fin {p : CrcParams} (hxor : p.xorout = 0) (href : p.refin = p.refout) (c : Byte) :
    crcInput p (crc8Fin p c) = c := by
  rw [crcInput, crc8Fin, hxor, href]
  split <;> simp [rev8_rev8]

theorem crcReg_append_crc8 {p : CrcParams} (hxor : p.xorout = 0) (href : p.refin = p.refout) (s : List Byte) :
    crcReg p p.init (s ++ [crc8 p s]) = 0 := by
  rw [crcReg_append, crcReg_cons, crcReg_nil, crc8Step, crc8, crcInput_crc8Fin hxor href, BitVec.xor_self]
  exact crcShifts_zero _ _

/-- Settles O14: the register cancels itself; where the settings differ, the empty sequence leaves a residue already. -/
theorem crcResidueIsZero : Obligations.CrcResidueIsZero := by
  refine ⟨fun p s hxor href => crcReg_append_crc8 hxor href s, fun r => ?_, fun r1 r2 => ?_⟩
  · exact ⟨{ CrcParams.ref with init := 0x01, refin := r, refout := !r }, [], rfl, rfl, rfl, by revert r; decide⟩
  · exact ⟨{ CrcParams.ref with refin := r1, refout := r2, xorout := 0x01 }, [], by simp, rfl, rfl, by revert r1 r2; decide⟩

/-! The table (R95). -/

theorem crcTable_getElem? (poly i : Byte) : (crcTable poly)[i.toNat]? = some (crcShifts poly 8 i) := by
  simp [crcTable, List.getElem?_range i.isLt]

/-- Settles O15: the step is the eight passes on the table's index. -/
theorem tableDrivenStepEqualsBitwise : Obligations.TableDrivenStepEqualsBitwise := by
  refine ⟨fun p c b => crcTable_getElem? p.poly _, fun p i hrefin => ?_⟩
  have hinput : crcInput p i = i := by simp [crcInput, hrefin]
  have hstep : crc8Step p 0 i = crcShifts p.poly 8 (crcInput p i) := crc8Step_zero_left p i
  rw [crcTable_getElem?, hstep, hinput]

/-! The two byte ranges (R91). -/

section FrameCrcCongr

variable {p p' : CrcParams} (hcrc : ∀ body, body.head? = some marker → frameCrc p body = frameCrc p' body)
include hcrc

/-- R91: a pass uses the parameters only for the checksum of a body that begins with the marker. -/
theorem drainPass_congr (d : Decoder) : drainPass p d = drainPass p' d := by
  obtain ⟨hb, hpass⟩ | ⟨m, q, hb, hm, hpass⟩ | ⟨q, hb, hn, hpass⟩ | ⟨q, rest, f, hb, hf, hpass⟩ := drainPass_cases p d
  · rw [hpass, drainPass_empty hb]
  · rw [hpass, drainPass_garbage hb hm]
  · rw [hpass, drainPass_wait hb hn]
  · have hmarker : f.body.head? = some marker := by
      obtain ⟨_, hs⟩ := parseFrame?_eq_some.mp hf
      rw [hb, Frame.pack_eq] at hs
      exact congrArg some (List.head_eq_of_cons_eq hs).symm
    rw [hpass, drainPass_judge hb hf, judge, judge, crcOk, crcOk, hcrc f.body hmarker]

theorem drain_congr (d : Decoder) : drain p d = drain p' d := by
  refine drain_induction (p := p) (P := fun d => drain p d = drain p' d) (fun d ih => ?_) d
  cases hpass : drainPass p d with
  | stop d' ev => rw [drain_of_stop hpass, drain_of_stop ((drainPass_congr hcrc d).symm.trans hpass)]
  | again d' ev => rw [drain_of_again hpass, drain_of_again ((drainPass_congr hcrc d).symm.trans hpass), ih d' ev hpass]

theorem Decoder.rxPush_congr (q : List Byte) (d : Decoder) : d.rxPush p q = d.rxPush p' q := by
  induction q generalizing d with
  | nil => rfl
  | cons b q ih => rw [Decoder.rxPush_cons, Decoder.rxPush_cons, Decoder.rxByte, Decoder.rxByte, drain_congr hcrc, ih]

end FrameCrcCongr

/-- R91: leaving the marker out and starting from the register behind it gives the checksum of the whole body. -/
theorem frameCrc_start_absorbed {p : CrcParams} (hstart : p.start = 0) {body : List Byte} (hbody : body.head? = some marker) :
    frameCrc p body = frameCrc { p with start := 1, init := crc8Step p p.init marker } body := by
  obtain ⟨q, rfl⟩ := List.head?_eq_some_iff.mp hbody
  rw [frameCrc, hstart]
  rfl

/-- R91: with an odd polynomial no register is lost: a difference is nonzero after any number of passes. -/
theorem crcShifts_injective {poly : Byte} (hodd : poly.getLsbD 0 = true) (n : Nat) : Function.Injective (crcShifts poly n) := by
  intro a b h
  by_contra hne
  have hdiff : NonzeroMultiple 0 (a ^^^ b) := ⟨fun hz => hne (BitVec.xor_eq_zero_iff.mp hz), nofun⟩
  obtain ⟨hkept, _⟩ := crcShifts_nonzeroMultiple ⟨hodd, nofun⟩ n hdiff
  exact hkept (by rw [crcShifts_xor, h, BitVec.xor_self]; rfl)

/-- R91: with an even polynomial bit 0 is clear after every pass. -/
theorem crcShifts_succ_getLsbD_zero {poly : Byte} (heven : poly.getLsbD 0 = false) (n : Nat) (c : Byte) :
    (crcShifts poly (n + 1) c).getLsbD 0 = false := by
  rw [crcShifts_add, crcShifts, crcShifts, crcShift_getLsbD _ _ (by omega), heven]
  simp

theorem crc8Step_bijective_iff (p : CrcParams) (b : Byte) :
    Function.Bijective (fun c => crc8Step p c b) ↔ p.poly.getLsbD 0 = true := by
  constructor
  · rintro ⟨_, hsurj⟩
    by_contra heven
    obtain ⟨c, hc⟩ := hsurj 1
    have hbit := crcShifts_succ_getLsbD_zero (by simpa using heven) 7 (c ^^^ crcInput p b)
    rw [show crcShifts p.poly (7 + 1) (c ^^^ crcInput p b) = 1 from hc] at hbit
    exact absurd hbit (by decide)
  · intro hodd
    refine Finite.injective_iff_bijective.mp fun c₁ c₂ h => ?_
    exact (BitVec.xor_left_inj _).mp (crcShifts_injective hodd 8 h)

/-- Settles O11: encoder and decoder use the parameters through the checksum of a body that begins with the marker. -/
theorem crcStartIsAbsorbedByInit : Obligations.CrcStartIsAbsorbedByInit := by
  refine ⟨fun p p1 hstart hp1 => ?_, fun p => crc8Step_bijective_iff p marker, by decide⟩
  subst hp1
  have hcrc := fun body => frameCrc_start_absorbed (body := body) hstart
  refine ⟨hcrc, fun a q => ?_, fun d q => Decoder.rxPush_congr hcrc q d⟩
  rw [encodedFrame, encodedFrame, hcrc _ rfl]

end Sys2Proof.Machine

/-! The operations of the stand-alone CRC unit (spec/40_crc8.md R85 to R89). Then the statements O9, O5, O6, O7 and O8. -/

namespace Sys2Proof.Machine

/-! An operation that reads `crc_acc`, where it holds a specified value. -/

theorem exec_crcUpd_ready {s : State} (hr : s.crcReady = true) (b : Byte) :
    exec (.crcUpd b) s = .next { s with crcAcc := crc8Step s.cfg.crc s.crcAcc b, result := .none } := by
  rw [exec_crcUpd, readingCrc_next s _ hr, State.setCrc, ← hr]
  rfl

theorem exec_crcGet_ready {s : State} (hr : s.crcReady = true) :
    exec .crcGet s = .next { s with result := .byte (crc8Fin s.cfg.crc s.crcAcc) } := by
  rw [exec_crcGet, readingCrc_next s _ hr]
  rfl

theorem exec_crcChk_ready {s : State} (hr : s.crcReady = true) (c : Byte) :
    exec (.crcChk c) s = .next { s with result := .bool (decide (crc8Fin s.cfg.crc s.crcAcc = c)) } := by
  rw [exec_crcChk, readingCrc_next s _ hr]
  rfl

/-- R89: CRC.UPD of every byte and then CRC.GET, from any specified register. -/
theorem runOps_crcUpd_crcGet (q : List Byte) {s : State} (hr : s.crcReady = true) :
    ∃ rs, runOps (q.map .crcUpd ++ [.crcGet]) s =
      some ({ s with crcAcc := crcReg s.cfg.crc s.crcAcc q,
                     result := .byte (crc8Fin s.cfg.crc (crcReg s.cfg.crc s.crcAcc q)) }, rs) := by
  induction q generalizing s with
  | nil => exact ⟨_, runOps_cons (exec_crcGet_ready hr)⟩
  | cons b q ih =>
    obtain ⟨rs, hrest⟩ := ih (s := { s with crcAcc := crc8Step s.cfg.crc s.crcAcc b, result := .none }) hr
    refine ⟨.none :: rs, ?_⟩
    rw [List.map_cons, List.cons_append, runOps_cons (exec_crcUpd_ready hr b), hrest]
    rfl

/-- Settles O9: after CRC.CLR the register is specified, so the expansion runs, from any state (log 8). -/
theorem crcBlkEqualsItsExpansion : Obligations.CrcBlkEqualsItsExpansion := by
  refine ⟨fun _ => rfl, fun q s => ⟨exec_crcBlk s q, ?_⟩⟩
  obtain ⟨rs, hrest⟩ := runOps_crcUpd_crcGet q
    (s := { s with crcAcc := s.cfg.crc.init, crcReady := true, result := .none }) rfl
  refine ⟨_, .none :: rs, ?_, exec_crcBlk s q⟩
  rw [runOps_cons (exec_crcClr s), hrest]
  rfl

/-- Settles O5: CRC.CLR writes the same three fields in every state. -/
theorem crcClrLoadsInit : Obligations.CrcClrLoadsInit :=
  ⟨rfl, fun s => ⟨exec_crcClr s, exec_crcClr _⟩⟩

theorem crc8Step_zero_zero (p : CrcParams) : crc8Step p 0#8 0#8 = 0#8 := by
  rw [crc8Step_zero_right, crcShifts_zero]

/-- Settles O6: the register and the byte are zero together; the fixed points under REF are found among the 256 registers. -/
theorem crcUpdStepsRegister : Obligations.CrcUpdStepsRegister :=
  ⟨fun _ => rfl, fun b _ hr => exec_crcUpd_ready hr b, crc8Step_zero_zero, by decide, by decide, by decide, by decide⟩

/-- Settles O7: CRC.CLR leaves the register that `crc8` starts from. -/
theorem crcGetReturnsFinalisedRegister : Obligations.CrcGetReturnsFinalisedRegister := by
  refine ⟨rfl, fun s hr => ⟨exec_crcGet_ready hr, fun t ht => ?_⟩⟩
  cases ht
  exact exec_crcGet_ready rfl

/-- Settles O8: the comparison is decidable equality of bytes. -/
theorem crcChkComparesFinalisedRegister : Obligations.CrcChkComparesFinalisedRegister :=
  ⟨fun _ => rfl, fun c _ hr => exec_crcChk_ready hr c⟩

end Sys2Proof.Machine

/-! The encoder (spec/41_encode.md R100 to R105): the record that TX.ENC packs, and what becomes of its bytes in the decoder. Then the
statements O21, O17, O20, O18 and O19. -/

namespace Sys2Proof.Machine

/-! The record that TX.ENC packs. -/

/-- R100: the record of address `a` and payload `q`, with the length byte and the checksum that TX.ENC computes. -/
def sentFrame (p : CrcParams) (a : Byte) (q : List Byte) : Frame :=
  ⟨marker, a, lengthByte q, q, frameCrc p ([marker, a, lengthByte q] ++ q)⟩

theorem sentFrame_checksum (p : CrcParams) (a : Byte) (q : List Byte) :
    (sentFrame p a q).checksum = frameCrc p (sentFrame p a q).body := rfl

/-- R60, R100: where the payload fits, the length byte counts it and the record is valid. -/
theorem sentFrame_valid (p : CrcParams) (a : Byte) {q : List Byte} (h : PayloadFits q) : FrameValid p (sentFrame p a q) :=
  ⟨rfl, (lengthByte_toNat h).symm, sentFrame_checksum p a q⟩

theorem sentFrame_size (p : CrcParams) (a : Byte) {q : List Byte} (h : PayloadFits q) : (sentFrame p a q).size = 4 + q.length :=
  congrArg (4 + ·) (lengthByte_toNat h)

/-! What TX.ENC returns. -/

/-- R100: a payload that fits is answered with the record's bytes. -/
theorem exec_txEnc_fits (s : State) (a : Byte) {q : List Byte} (h : PayloadFits q) :
    exec (.txEnc a q) s = .next { s with result := .bytes (sentFrame s.cfg.crc a q).pack } := by
  rw [exec_txEnc, if_pos h, encodedFrame_eq_pack]
  rfl

/-- R102: a longer payload is refused, in the result (log 6). -/
theorem exec_txEnc_tooLong (s : State) (a : Byte) {q : List Byte} (h : ¬ PayloadFits q) :
    exec (.txEnc a q) s = .next { s with result := .payloadTooLong q.length } := by
  rw [exec_txEnc, if_neg h]
  rfl

/-- R100, R102: bytes come back only as the packed record. -/
theorem exec_txEnc_eq_bytes {s t : State} {a : Byte} {q w : List Byte} (h : exec (.txEnc a q) s = .next t)
    (hw : t.result = .bytes w) : w = (sentFrame s.cfg.crc a q).pack := by
  by_cases hfits : PayloadFits q
  · rw [exec_txEnc_fits s a hfits] at h
    cases h
    exact (Result.bytes.inj hw).symm
  · rw [exec_txEnc_tooLong s a hfits] at h
    cases h
    cases hw

/-! The record's bytes in the decoder. -/

/-- R111 step 7, R117: a valid frame on an empty buffer is delivered after the report of the garbage before it. -/
theorem Decoder.rxPush_pack_valid_of_empty {p : CrcParams} {d : Decoder} {f : Frame} (hd : d.buf = []) (hf : FrameValid p f) :
    d.rxPush p f.pack = ({ buf := [], pos := d.pos + f.size, gcount := 0 },
      d.garbageEvents ++ [.frame d.pos f.address f.length f.payload f.checksum]) := by
  have ⟨hm, hl, _⟩ := hf
  rw [Decoder.rxPush_pack p hd hl hm, drain_good rfl hf (List.append_nil _).symm, drain_nil rfl]

/-- R116: DECODE of a valid frame's bytes is the one Frame event. -/
theorem decodeOnce_pack_valid {p : CrcParams} {f : Frame} (hf : FrameValid p f) :
    decodeOnce p f.pack = [.frame 0 f.address f.length f.payload f.checksum] := by
  have hpush := Decoder.rxPush_pack_valid (d := Decoder.empty) ⟨rfl, rfl⟩ hf
  rw [decodeOnce, scratchEvents, hpush]
  rfl

/-! The bytes of a packed record. -/

/-- R61: the checksum is the byte after the payload. -/
theorem pack_getElem?_checksum (f : Frame) : f.pack[3 + f.payload.length]? = some f.checksum := by
  rw [Frame.pack, ← Frame.body_length, List.getElem?_concat_length]

/-- R61: the payload begins at byte 3. -/
theorem pack_getElem?_payload (f : Frame) {i : Nat} (hi : i < f.payload.length) : f.pack[3 + i]? = f.payload[i]? := by
  rw [Frame.pack_eq, Nat.add_comm 3 i]
  exact List.getElem?_append_left hi

theorem pack_take_body (f : Frame) : f.pack.take (3 + f.payload.length) = f.body :=
  List.take_left' f.body_length

/-- R66: packing loses nothing, whatever the record holds. -/
theorem pack_injective : Function.Injective Frame.pack := by
  rintro ⟨m, a, l, q, c⟩ ⟨m', a', l', q', c'⟩ h
  simp only [Frame.pack_eq, List.cons.injEq] at h
  obtain ⟨rfl, rfl, rfl, h⟩ := h
  obtain ⟨rfl, hc⟩ := List.append_inj' h rfl
  cases hc
  rfl

/-! The statements. -/

/-- Settles O21: the bytes pack a valid record, which one-shot decoding and a push on an empty buffer deliver. A pending marker takes
the frame's address for its own length byte, and address 0x10 makes it wait for more bytes than the frame has. -/
theorem encodeThenDecodeRoundTrip : Obligations.EncodeThenDecodeRoundTrip := by
  refine ⟨fun a q s hfits => ?_, ⟨[marker], 0, 0⟩, 0x10, [], by decide, by decide, by decide, by decide⟩
  let f := sentFrame s.cfg.crc a q
  have hvalid : FrameValid s.cfg.crc f := sentFrame_valid s.cfg.crc a hfits
  refine ⟨f.pack, f.checksum, exec_txEnc_fits s a hfits, pack_getElem?_checksum f, ?_, fun hready hinv hempty => ?_⟩
  · rw [exec_decode, decodeOnce_pack_valid hvalid]
    rfl
  · rw [exec_rxPush, receiving_next s _ hready hinv, Decoder.rxPush_pack_valid_of_empty hempty hvalid,
      sentFrame_size s.cfg.crc a hfits, ← Nat.add_assoc]
    rfl

/-- Settles O17: each field is read off the packed record. -/
theorem txEncReturnsTheFrame : Obligations.TxEncReturnsTheFrame := by
  refine ⟨fun _ _ => rfl, fun a q s hfits => ?_⟩
  let f := sentFrame s.cfg.crc a q
  have hvalid : FrameValid s.cfg.crc f := sentFrame_valid s.cfg.crc a hfits
  have ⟨_, hl, _⟩ := hvalid
  refine ⟨f.pack, exec_txEnc_fits s a hfits, f.pack_length, rfl, rfl, rfl, fun i hi => pack_getElem?_payload f hi, ?_,
    (isFrame_pack hl).mpr hvalid⟩
  exact (pack_getElem?_checksum f).trans (congrArg (some <| frameCrc _ ·) (pack_take_body f).symm)

/-- Settles O20: equal bytes pack equal records, also under different configurations. -/
theorem txEncIsInjective : Obligations.TxEncIsInjective := by
  intro a a' q q' w s s' h h'
  have hframe : sentFrame s.cfg.crc a q = sentFrame s'.cfg.crc a' q' :=
    pack_injective ((exec_txEnc_eq_bytes h rfl).symm.trans (exec_txEnc_eq_bytes h' rfl))
  exact ⟨congrArg Frame.address hframe, congrArg Frame.payload hframe⟩

/-- Settles O18: a longer payload does not fit (log 6). -/
theorem txEncRefusesLongPayload : Obligations.TxEncRefusesLongPayload :=
  fun a _ s hlong => exec_txEnc_tooLong s a (Nat.not_le.mpr hlong)

/-- Settles O19: of the state, only the configuration enters the result. -/
theorem txEncDependsOnOperandsOnly : Obligations.TxEncDependsOnOperandsOnly := by
  intro a q s s' hcfg
  refine ⟨_, exec_txEnc s a q, ?_⟩
  rw [hcfg]
  exact exec_txEnc s' a q

end Sys2Proof.Machine

/-! The accounting of the received bytes, operation by operation and over a run (spec/42_decode.md R120, spec/20_memory.md R49). Then
the statements O60 and O36. -/

namespace Sys2Proof.Machine

/-- Settles O60: the received bytes go through `buf` in order, and the events lie end to end between the two reported offsets
(log 4). -/
theorem eachReceiveOperationAccountsForItsBytes : Obligations.EachReceiveOperationAccountsForItsBytes := by
  intro i s t hinv hi h
  have htiles := exec_tiles hi h
  exact ⟨exec_keeps_inv hinv h, (exec_receives hi h).pos_add_length, htiles.end_eq, htiles.offsets_increase,
    fun _ he => htiles.offset_mem he⟩

/-- R27: a run of receive operations that starts in a well-formed decoder state ends in one. -/
theorem runOps_dec_inv {ops : List Instr} {s t : State} {rs : List Result} (hops : ∀ i ∈ ops, receives i = true)
    (hs : s.dec.Inv) (h : runOps ops s = some (t, rs)) : t.dec.Inv := by
  induction ops generalizing s rs with
  | nil =>
    cases h
    exact hs
  | cons i ops ih =>
    obtain ⟨u, rest, hexec, hrun, rfl⟩ := runOps_cons_eq_some h
    obtain ⟨hi, hrest⟩ := List.forall_mem_cons.mp hops
    exact ih hrest (exec_inv_of_receives hi hexec) hrun

theorem bytesReceived_eq_length (ops : List Instr) : bytesReceived ops = (ops.flatMap receivedBytes).length :=
  List.length_flatMap.symm

/-- R120: a run of receive operations gives the decoder the bytes of its operations, one after another. -/
theorem runOps_receives {ops : List Instr} {s t : State} {rs : List Result} (hops : ∀ i ∈ ops, receives i = true)
    (h : runOps ops s = some (t, rs)) : s.dec.Receives (ops.flatMap receivedBytes) t.dec := by
  induction ops generalizing s rs with
  | nil =>
    cases h
    exact Decoder.Receives.refl _
  | cons i ops ih =>
    obtain ⟨u, rest, hexec, hrun, rfl⟩ := runOps_cons_eq_some h
    obtain ⟨hi, hrest⟩ := List.forall_mem_cons.mp hops
    exact (exec_receives hi hexec).trans (ih hrest hrun)

/-- Settles O36: the run's bytes went through `buf` in order, and its events lie end to end from offset 0 up to where the counted
garbage begins (log 4). -/
theorem everyReceivedByteIsAccountedOnce : Obligations.EveryReceivedByteIsAccountedOnce := by
  intro s t ops rs _ hempty hops hrun
  obtain ⟨_, _, hcounted, _⟩ := runOps_dec_inv hops (hempty ▸ Decoder.empty_inv) hrun
  have hpos := (runOps_receives hops hrun).pos_add_length
  have hend := (runOps_tiles hops hrun).end_eq
  simp only [Decoder.reported, hempty, List.length_nil] at hpos hend
  rw [bytesReceived_eq_length]
  omega

end Sys2Proof.Machine

/-! The loop on a complete candidate, and one receive operation (spec/42_decode.md R111, R112, R114, R115, R117, R118). Then the
statements O30, O29, O23, O22, O25 and O24. -/

namespace Sys2Proof.Machine

variable {p : CrcParams} {d : Decoder}

/-! The candidate that a sequence begins with (R61, R62). -/

section Candidate

variable {f : Frame} {s rest : List Byte}

theorem parseFrame?_address (h : parseFrame? s = some (f, rest)) : s.getD 1 0 = f.address := by
  obtain ⟨_, rfl⟩ := parseFrame?_eq_some.mp h
  rw [Frame.pack_eq]
  rfl

theorem parseFrame?_length (h : parseFrame? s = some (f, rest)) : s.getD 2 0 = f.length := by
  obtain ⟨_, rfl⟩ := parseFrame?_eq_some.mp h
  exact getD_two_pack_append f rest

/-- R62: the candidate has the size that its length byte declares, all of it there. -/
theorem parseFrame?_size_le (h : parseFrame? s = some (f, rest)) : f.size ≤ s.length := by
  obtain ⟨hl, rfl⟩ := parseFrame?_eq_some.mp h
  simp [Frame.size, hl]

/-- R62: a sequence of at least the size that its third byte declares holds its candidate. -/
theorem exists_parseFrame?_of_length_le (h : 4 + (s.getD 2 0).toNat ≤ s.length) : ∃ f rest, parseFrame? s = some (f, rest) := by
  cases hf : parseFrame? s with
  | none =>
    obtain hshort | hshort := parseFrame?_eq_none.mp hf <;> omega
  | some fr => exact ⟨fr.1, fr.2, rfl⟩

/-- R83: the body is all of the candidate but its last byte. -/
theorem parseFrame?_body (h : parseFrame? s = some (f, rest)) : s.take (f.size - 1) = f.body := by
  obtain ⟨hl, rfl⟩ := parseFrame?_eq_some.mp h
  rw [Frame.pack, List.append_assoc]
  exact List.take_left' (by rw [Frame.body_length, Frame.size]; omega)

theorem parseFrame?_checksum (h : parseFrame? s = some (f, rest)) : s.getD (f.size - 1) 0 = f.checksum := by
  obtain ⟨hl, rfl⟩ := parseFrame?_eq_some.mp h
  have hlast : f.size - 1 = f.body.length := by rw [Frame.body_length, Frame.size]; omega
  simp [Frame.pack, hlast]

theorem parseFrame?_payload (h : parseFrame? s = some (f, rest)) : (s.drop 3).take (f.size - 4) = f.payload := by
  obtain ⟨hl, rfl⟩ := parseFrame?_eq_some.mp h
  rw [Frame.pack_eq]
  simp [Frame.size, ← hl]

/-! The loop where a marker stands in front, with garbage counted or not (R111 steps 3 to 8). -/

theorem drain_wait (hm : d.buf.head? = some marker) (hn : parseFrame? d.buf = none) :
    drain p d = (d.clearGarbage, d.garbageEvents) := by
  obtain ⟨q, hq⟩ := List.head?_eq_some_iff.mp hm
  exact drain_of_stop (drainPass_wait hq hn)

theorem drain_match (hm : d.buf.head? = some marker) (hf : parseFrame? d.buf = some (f, rest))
    (hc : frameCrc p f.body = f.checksum) :
    drain p d = ((drain p (d.clearGarbage.drop f.size)).1,
      d.garbageEvents ++ [.frame d.pos f.address f.length f.payload f.checksum] ++ (drain p (d.clearGarbage.drop f.size)).2) := by
  obtain ⟨q, hq⟩ := List.head?_eq_some_iff.mp hm
  have hpass := drainPass_judge (p := p) hq hf
  rw [judge, if_pos (by simpa [crcOk] using hc)] at hpass
  exact drain_of_again hpass

theorem drain_mismatch (hm : d.buf.head? = some marker) (hf : parseFrame? d.buf = some (f, rest))
    (hc : frameCrc p f.body ≠ f.checksum) :
    drain p d = ((drain p (d.clearGarbage.drop 1)).1,
      d.garbageEvents ++ [.checksumError d.pos f.address f.length (frameCrc p f.body) f.checksum] ++
        (drain p (d.clearGarbage.drop 1)).2) := by
  obtain ⟨q, hq⟩ := List.head?_eq_some_iff.mp hm
  have hpass := drainPass_judge (p := p) hq hf
  rw [judge, if_neg (by simpa [crcOk] using hc)] at hpass
  exact drain_of_again hpass

end Candidate

/-- Settles O22: each branch of the rule is one case of a pass, and the loop goes on with the decoder that the pass leaves. -/
theorem drainFollowsTheEightSteps : Obligations.DrainFollowsTheEightSteps := by
  intro p d
  by_cases hempty : d.buf.length = 0
  · rw [if_pos hempty, drain_nil (List.eq_nil_of_length_eq_zero hempty)]
  by_cases hm : d.buf.head? = some marker
  case neg =>
    obtain ⟨b, q, hq⟩ := List.exists_cons_of_length_pos (Nat.pos_of_ne_zero hempty)
    have hb : b ≠ marker := fun hb => hm (by rw [hq, hb]; rfl)
    rw [if_neg hempty, if_pos hm, drain_of_again (drainPass_garbage hq hb)]
    rfl
  rw [if_neg hempty, if_neg (not_not.mpr hm)]
  cases hparse : parseFrame? d.buf with
  | none =>
    rw [drain_wait hm hparse]
    obtain hshort | hpending := parseFrame?_eq_none.mp hparse
    · exact (if_pos hshort).symm
    · by_cases hshort : d.buf.length < 3
      · exact (if_pos hshort).symm
      · exact ((if_neg hshort).trans (if_pos hpending)).symm
  | some fr =>
    obtain ⟨f, rest⟩ := fr
    have hsize := parseFrame?_size_le hparse
    have hfour : 4 ≤ f.size := Nat.le_add_right 4 _
    have hn : 4 + (d.buf.getD 2 0).toNat = f.size := by rw [parseFrame?_length hparse]; rfl
    have hbody : d.memRead 0 (f.size - 1) = f.body := parseFrame?_body hparse
    have hpayload : d.memRead 3 (f.size - 4) = f.payload := parseFrame?_payload hparse
    simp only [hn]
    rw [if_neg (by omega), if_neg (by omega), hbody, hpayload, parseFrame?_checksum hparse, parseFrame?_address hparse,
      parseFrame?_length hparse]
    by_cases hc : frameCrc p f.body = f.checksum
    · rw [if_pos hc]
      exact drain_match hm hparse hc
    · rw [if_neg hc]
      exact drain_mismatch hm hparse hc

/-! The other procedures of the decoder. -/

theorem Decoder.eq_of_buf_nil (hb : d.buf = []) : d = { buf := [], pos := d.pos, gcount := d.gcount } := by
  rw [← hb]

/-- R114: what the flush leaves and reports, of which INV4 lets at most one be there. -/
theorem Decoder.rxFlush_eq (h4 : d.Inv4) :
    d.rxFlush = ({ buf := [], pos := d.pos + d.buf.length, gcount := 0 },
      if d.gcount > 0 then [.desync (d.pos - d.gcount) d.gcount]
      else if d.buf.length > 0 then [.truncated d.pos d.buf.length] else []) := by
  have hdec : d.clearGarbage.drop d.buf.length = { buf := [], pos := d.pos + d.buf.length, gcount := 0 } := by
    simp [Decoder.drop, Decoder.clearGarbage]
  rw [Decoder.rxFlush, hdec, Decoder.garbageEvents, Decoder.truncatedEvents]
  by_cases hg : d.gcount > 0
  · have hempty : ¬ d.buf.length > 0 := fun hb => Nat.ne_of_gt hg (h4 hb)
    simp only [if_pos hg, if_neg hempty, List.append_nil]
  · simp only [if_neg hg, List.nil_append]

/-- R27 INV1, INV4: what a pending candidate begins with, and that no garbage is counted before it. -/
theorem Decoder.Inv.of_pending (h : d.Inv) (hb : d.buf ≠ []) : d.buf.head? = some marker ∧ d.gcount = 0 := by
  obtain ⟨h1, _, _, h4⟩ := h
  exact ⟨h1.resolve_left hb, h4 (List.length_pos_iff.mpr hb)⟩

/-- R125: in a pending state a byte that does not complete the candidate is only stored. -/
theorem Decoder.rxByte_stores (h : d.Inv) (hb : d.buf ≠ []) {b : Byte} (hn : parseFrame? (d.buf ++ [b]) = none) :
    d.rxByte p b = ({ d with buf := d.buf ++ [b] }, []) := by
  obtain ⟨hm, hg⟩ := h.of_pending hb
  obtain ⟨q, hq⟩ := List.head?_eq_some_iff.mp hm
  exact Decoder.rxByte_wait hq hg b hn

/-- R118: whatever the buffer held, INV1, INV2 and INV4 hold where the loop stops. -/
theorem drain_inv124 (p : CrcParams) (d : Decoder) : (drain p d).1.Inv1 ∧ (drain p d).1.Inv2 ∧ (drain p d).1.Inv4 := by
  obtain hempty | ⟨hm, hn, hg⟩ := drain_stops p d
  · exact ⟨.inl hempty, .inl (by simp [hempty]), by simp [Decoder.Inv4, hempty]⟩
  · exact ⟨.inr hm, parseFrame?_eq_none.mp hn, fun _ => hg⟩

theorem Decoder.append_checksum {f : Frame} (hbody : d.buf = f.body) : (d.append f.checksum).buf = f.pack ++ [] := by
  rw [List.append_nil, Frame.pack, ← hbody]
  rfl

section Complete

variable {f : Frame} (hg : d.gcount = 0) (hbody : d.buf = f.body) (hm : f.marker = marker)
  (hl : f.payload.length = f.length.toNat)
include hg hbody

/-- R117: the matching checksum completes a frame, and nothing is left. -/
theorem Decoder.rxByte_match (hv : FrameValid p f) :
    d.rxByte p f.checksum = ({ buf := [], pos := d.pos + f.size, gcount := 0 },
      [.frame d.pos f.address f.length f.payload f.checksum]) := by
  rw [Decoder.rxByte, drain_good (d := d.append f.checksum) hg hv (Decoder.append_checksum hbody), drain_nil rfl]
  rfl

include hm hl

/-- R117: another checksum completes a corrupt candidate, of which the loop examines all but the marker again. -/
theorem Decoder.rxByte_mismatch (hc : f.checksum ≠ frameCrc p f.body) :
    d.rxByte p f.checksum =
      ((drain p { buf := (d.buf ++ [f.checksum]).drop 1, pos := d.pos + 1, gcount := 0 }).1,
        .checksumError d.pos f.address f.length (frameCrc p f.body) f.checksum ::
          (drain p { buf := (d.buf ++ [f.checksum]).drop 1, pos := d.pos + 1, gcount := 0 }).2) := by
  exact drain_corrupt (d := d.append f.checksum) hg hm hl hc (Decoder.append_checksum hbody)

end Complete

/-! The operations of the block. -/

/-- Settles O30: RX.RST writes the decoder's registers and nothing else. -/
theorem rxRstClearsDecoderOnly : Obligations.RxRstClearsDecoderOnly :=
  ⟨rfl, exec_rxRst⟩

theorem exec_rxFlush_next {s : State} (hready : s.decoderReady = true) (hinv : s.dec.Inv) :
    exec .rxFlush s = .next { s with
      dec := { buf := [], pos := s.dec.pos + s.dec.buf.length, gcount := 0 },
      result := .events (if s.dec.gcount > 0 then [.desync (s.dec.pos - s.dec.gcount) s.dec.gcount]
        else if s.dec.buf.length > 0 then [.truncated s.dec.pos s.dec.buf.length] else []) } := by
  have ⟨_, _, _, h4⟩ := hinv
  rw [exec_rxFlush, receiving_next s _ hready hinv, Decoder.rxFlush_eq h4]

/-- Settles O29: in the clean state there is nothing to report and `pos` moves by zero bytes. -/
theorem rxFlushReportsAndDiscards : Obligations.RxFlushReportsAndDiscards := by
  refine ⟨rfl, fun s hready hinv => ⟨exec_rxFlush_next hready hinv, fun ⟨hb, hg⟩ => ?_⟩⟩
  have hsame : ({ buf := [], pos := s.dec.pos + s.dec.buf.length, gcount := 0 } : Decoder) = s.dec := by
    rw [Decoder.eq_of_buf_nil hb, hg]
    rfl
  rw [exec_rxFlush_next hready hinv, hsame]
  simp [hb, hg]

theorem exec_rxByte_next {s : State} (hready : s.decoderReady = true) (hinv : s.dec.Inv) (b : Byte) :
    exec (.rxByte b) s = .next { s with dec := (s.dec.rxByte s.cfg.crc b).1, result := .events (s.dec.rxByte s.cfg.crc b).2 } :=
  (exec_rxByte s b).trans (receiving_next s _ hready hinv)

/-- Settles O23: the loop raises three kinds of event, none of them `Truncated` or `NoMarker`. -/
theorem rxByteAppendsThenDrains : Obligations.RxByteAppendsThenDrains := by
  refine ⟨fun _ => rfl, fun b s hready hinv => ⟨exec_rxByte_next hready hinv b, ?_⟩⟩
  exact drain_raises s.cfg.crc (fun e => (∀ o n, e ≠ .truncated o n) ∧ ∀ n, e ≠ .noMarker n)
    (fun _ _ _ => ⟨nofun, nofun⟩) (fun _ _ _ => ⟨nofun, nofun⟩) (fun _ _ _ _ _ _ => ⟨nofun, nofun⟩) _

/-- Settles O25: a pending candidate is shorter than its declared size, which is 259 bytes at most. -/
theorem bufferNeverOverflows : Obligations.BufferNeverOverflows := by
  refine ⟨fun p d b _ h2 _ => ?_, fun p d d' ev => drainPass_again_shorter, fun p d => ?_⟩
  · obtain ⟨hkept1, hkept2, hkept4⟩ := drain_inv124 p (d.append b)
    have hlen := h2.buf_length_le
    exact ⟨hlen, by simpa using Nat.lt_succ_of_le hlen, hkept1, hkept2, hkept4, fun h3 => drain_gcount_le_pos p (d.append b) h3⟩
  · obtain hempty | ⟨hm, hn, hg⟩ := drain_stops p d
    · exact .inl (by rw [hempty]; rfl)
    · by_cases hshort : (drain p d).1.buf.length < 3
      · exact .inr (.inl ⟨hm, hshort, hg⟩)
      · have hlength : ((drain p d).1.buf.getD 2 0).toNat < 256 := BitVec.isLt _
        have hpending := (parseFrame?_eq_none.mp hn).resolve_left hshort
        exact .inr (.inr ⟨hm, by omega, hpending, by omega, hg⟩)

section Transitions

variable {s : State} (hready : s.decoderReady = true) (hinv : s.dec.Inv)
include hready hinv

/-- R117: in HEADER, and in BODY while the candidate stays incomplete, the byte is stored. -/
theorem exec_rxByte_stores {b : Byte} (hb : s.dec.buf ≠ []) (hn : parseFrame? (s.dec.buf ++ [b]) = none) :
    exec (.rxByte b) s = .next { s with dec := { s.dec with buf := s.dec.buf ++ [b] }, result := .events [] } := by
  rw [exec_rxByte_next hready hinv, Decoder.rxByte_stores hinv hb hn]

end Transitions

/-- Settles O24: row by row; the completed candidate is the packed record of the stored bytes and the one that arrives. -/
theorem rxByteTransitionTable : Obligations.RxByteTransitionTable := by
  intro s hready hinv
  refine ⟨fun b hb hm => ?_, fun hb => ?_, fun b hmin hmax => ?_, fun b a L pl hb hlen => ?_, fun b a L pl hb hlen hc => ?_,
    fun b a L pl hb hlen hc => ?_, ⟨_, exec_rxFlush_next hready hinv, rfl⟩, ⟨_, exec_rxRst s, rfl⟩⟩
  · rw [exec_rxByte_next hready hinv, Decoder.rxByte_garbage hb hm]
  · rw [exec_rxByte_next hready hinv, Decoder.rxByte_marker hb]
    rfl
  · refine exec_rxByte_stores hready hinv (List.length_pos_iff.mp hmin) (parseFrame?_eq_none.mpr ?_)
    rw [List.length_append, List.length_singleton]
    omega
  · refine exec_rxByte_stores hready hinv (by simp [hb]) (parseFrame?_eq_none.mpr (.inr ?_))
    rw [List.length_append, List.length_singleton, hb]
    rw [hb] at hlen
    exact hlen
  · have hl : pl.length = L.toNat := by simp [hb] at hlen; omega
    have hg := (hinv.of_pending (by simp [hb])).2
    have hbyte : s.dec.rxByte s.cfg.crc b = _ :=
      Decoder.rxByte_match (f := ⟨marker, a, L, pl, b⟩) hg hb ⟨rfl, hl, by rw [← hc, hb]; rfl⟩
    rw [exec_rxByte_next hready hinv, hbyte]
    rfl
  · have hl : pl.length = L.toNat := by simp [hb] at hlen; omega
    have hg := (hinv.of_pending (by simp [hb])).2
    have hbyte : s.dec.rxByte s.cfg.crc b = _ :=
      Decoder.rxByte_mismatch (f := ⟨marker, a, L, pl, b⟩) hg hb rfl hl (by rw [hb] at hc; exact hc.symm)
    obtain ⟨k, _, _, hpos⟩ := drain_drops s.cfg.crc { buf := (s.dec.buf ++ [b]).drop 1, pos := s.dec.pos + 1, gcount := 0 }
    refine ⟨_, _, rfl, hpos ▸ Nat.le_add_right _ k, ?_⟩
    rw [exec_rxByte_next hready hinv, hbyte, hb]
    rfl

end Sys2Proof.Machine

/-! Sequences pushed in pieces (spec/42_decode.md R113, R119, R121, R122, R124, R125). Then the statements O28, O27, O34, O26, O32
and O35. -/

namespace Sys2Proof.Machine

variable {p : CrcParams} {d : Decoder}

/-! Runs of pushes. -/

section Pushes

variable {s : State} (hready : s.decoderReady = true) (hinv : s.dec.Inv)
include hready hinv

theorem exec_rxPush_next (q : List Byte) :
    exec (.rxPush q) s = .next { s with dec := (s.dec.rxPush s.cfg.crc q).1, result := .events (s.dec.rxPush s.cfg.crc q).2 } :=
  (exec_rxPush s q).trans (receiving_next s _ hready hinv)

/-- R122: a run of pushes does to the decoder what one push of all the bytes does, and returns the same events. -/
theorem runOps_rxPush (pieces : List (List Byte)) :
    ∃ r rs, runOps (pieces.map .rxPush) s =
        some ({ s with dec := (s.dec.rxPush s.cfg.crc pieces.flatten).1, result := r }, rs) ∧
      eventsOf rs = (s.dec.rxPush s.cfg.crc pieces.flatten).2 := by
  induction pieces generalizing s with
  | nil => exact ⟨s.result, [], rfl, rfl⟩
  | cons q pieces ih =>
    have hfirst := exec_rxPush_next hready hinv q
    obtain ⟨r, rs, hrun, hev⟩ := ih
      (s := { s with dec := (s.dec.rxPush s.cfg.crc q).1, result := .events (s.dec.rxPush s.cfg.crc q).2 })
      hready (Decoder.rxPush_inv _ q hinv)
    refine ⟨r, .events (s.dec.rxPush s.cfg.crc q).2 :: rs, ?_, ?_⟩
    · rw [List.map_cons, runOps_cons hfirst, hrun, List.flatten_cons, Decoder.rxPush_append]
      rfl
    · rw [List.flatten_cons, Decoder.rxPush_append, ← hev]
      rfl

end Pushes

/-- Settles O28: the run and the push of the whole leave the same decoder. -/
theorem fragmentationDoesNotMatter : Obligations.FragmentationDoesNotMatter := by
  intro s hready hinv pieces
  obtain ⟨r, rs, hrun, hev⟩ := runOps_rxPush hready hinv pieces
  exact ⟨_, rs, hrun, by rw [exec_rxPush_next hready hinv, ← hev]⟩

theorem Decoder.rxPush_singleton (p : CrcParams) (d : Decoder) (b : Byte) : d.rxPush p [b] = d.rxByte p b := by
  rw [Decoder.rxPush_cons, Decoder.rxPush_nil, List.append_nil]

/-- R113: RX.BYTE is the push of one byte. -/
theorem exec_rxByte_eq_rxPush (b : Byte) (s : State) : exec (.rxByte b) s = exec (.rxPush [b]) s := by
  simp only [exec_rxByte, exec_rxPush, Decoder.rxPush_singleton]

theorem runOps_rxByte_eq_rxPush (q : List Byte) (s : State) :
    runOps (q.map .rxByte) s = runOps ((q.map ([·])).map .rxPush) s := by
  induction q generalizing s with
  | nil => rfl
  | cons b q ih => simp only [List.map_cons, runOps, exec_rxByte_eq_rxPush, ih]

/-- Settles O27: the bytes are pieces of length one, and two pushes are two pieces. -/
theorem rxPushIsTheFoldOfRxByte : Obligations.RxPushIsTheFoldOfRxByte := by
  refine ⟨fun _ => rfl, fun s hready hinv => ⟨fun q => ?_, exec_rxPush_next hready hinv [], fun q r => ?_⟩⟩
  · obtain ⟨t, rs, hrun, hwhole⟩ := fragmentationDoesNotMatter s hready hinv (q.map ([·]))
    rw [← List.flatMap_def, List.flatMap_singleton'] at hwhole
    exact ⟨t, rs, (runOps_rxByte_eq_rxPush q s).trans hrun, hwhole⟩
  · refine ⟨_, _, exec_rxPush_next hready hinv q, exec_rxPush_next (by exact hready) (Decoder.rxPush_inv _ q hinv) r, ?_⟩
    rw [exec_rxPush_next hready hinv, Decoder.rxPush_append]
    rfl

/-! Bytes without a marker (R124). -/

/-- R124: on an empty buffer a sequence without a marker is counted byte by byte. -/
theorem Decoder.rxPush_noMarker {g : List Byte} (hb : d.buf = []) (hg : marker ∉ g) :
    d.rxPush p g = ({ buf := [], pos := d.pos + g.length, gcount := d.gcount + g.length }, []) := by
  induction g generalizing d with
  | nil => exact congrArg (·, []) (Decoder.eq_of_buf_nil hb)
  | cons b g ih =>
    obtain ⟨hm, hrest⟩ := not_or.mp (List.mem_cons.not.mp hg)
    rw [Decoder.rxPush_cons, Decoder.rxByte_garbage hb (Ne.symm hm), ih rfl hrest]
    simp only [List.length_cons, List.nil_append, Nat.add_assoc, Nat.add_comm 1]

/-- R124: garbage that has been counted is reported by the next marker, and by the flush, as one run. -/
theorem exec_reports_garbage {s : State} (hinv : s.dec.Inv) (hready : s.decoderReady = true) (hg : 0 < s.dec.gcount) :
    (∃ u, exec (.rxByte marker) s = .next u ∧ u.result = .events [.desync (s.dec.pos - s.dec.gcount) s.dec.gcount]) ∧
    ∃ u, exec .rxFlush s = .next u ∧ u.result = .events [.desync (s.dec.pos - s.dec.gcount) s.dec.gcount] := by
  have ⟨_, _, _, h4⟩ := hinv
  have hb : s.dec.buf = [] := by
    by_contra hb
    exact Nat.ne_of_gt hg (h4 (List.length_pos_iff.mpr hb))
  refine ⟨⟨_, exec_rxByte_next hready hinv marker, ?_⟩, _, exec_rxFlush_next hready hinv, ?_⟩
  · rw [Decoder.rxByte_marker hb, Decoder.garbageEvents, if_pos hg]
  · rw [if_pos hg]

/-- Settles O34: the push and its pieces leave the run counted and nothing in `buf`. -/
theorem garbageIsCountedUntilReported : Obligations.GarbageIsCountedUntilReported := by
  intro s g hready hinv hb hg
  have hpush := Decoder.rxPush_noMarker (p := s.cfg.crc) hb hg
  have hexec := exec_rxPush_next hready hinv g
  rw [hpush] at hexec
  refine ⟨_, hexec, rfl, fun pieces hpieces => ?_, fun hcounted => ?_⟩
  · obtain ⟨r, rs, hrun, hev⟩ := runOps_rxPush hready hinv pieces
    rw [hpieces, hpush] at hrun hev
    exact ⟨_, rs, hrun, hev, rfl⟩
  · have hstart : s.dec.pos + g.length - (s.dec.gcount + g.length) = s.dec.pos - s.dec.gcount := Nat.add_sub_add_right ..
    have hreport := exec_reports_garbage (exec_inv_of_receives rfl hexec) hready hcounted
    rwa [hstart] at hreport

/-! A corrupt frame, and frames back to back. -/

/-- R119: a corrupt frame without a later marker: its other bytes are counted. -/
theorem Decoder.rxPush_pack_corrupt_noMarker {f : Frame} (hd : d.Clean) (hm : f.marker = marker)
    (hl : f.payload.length = f.length.toNat) (hc : f.checksum ≠ frameCrc p f.body) (hrest : marker ∉ f.pack.drop 1) :
    d.rxPush p f.pack = ({ buf := [], pos := d.pos + f.pack.length, gcount := 3 + f.length.toNat },
      [.checksumError d.pos f.address f.length (frameCrc p f.body) f.checksum]) := by
  have hcount : (f.pack.drop 1).length = 3 + f.length.toNat := by
    rw [List.length_drop, f.pack_length, hl]
    omega
  have hpos : d.pos + 1 + (3 + f.length.toNat) = d.pos + f.pack.length := by
    rw [f.pack_length, hl]
    omega
  have hdrain : drain p { buf := f.pack.drop 1, pos := d.pos + 1, gcount := 0 } = _ := drain_noMarker _ _ _ hrest
  rw [Decoder.rxPush_pack_of_clean p hd hm hl, drain_corrupt rfl hm hl hc (List.append_nil _).symm]
  rw [hcount, hpos, Nat.zero_add] at hdrain
  exact congrArg (fun r : Decoder × List Event => (r.1, Event.checksumError .. :: r.2)) hdrain

/-- Settles O26: the loop goes on with the marker dropped; where it finds no other one, the rest is counted. -/
theorem resyncDiscardsOnlyTheMarker : Obligations.ResyncDiscardsOnlyTheMarker := by
  refine ⟨fun p d f rest hg hm hl hc hb => drain_corrupt hg hm hl hc hb, fun s f hready hinv hb hg hm hl hc hrest => ?_⟩
  have hexec := exec_rxPush_next hready hinv f.pack
  rw [Decoder.rxPush_pack_corrupt_noMarker ⟨hb, hg⟩ hm hl hc hrest] at hexec
  have hstart : s.dec.pos + f.pack.length - (3 + f.length.toNat) = s.dec.pos + 1 := by
    rw [f.pack_length, hl]
    omega
  have hreport := exec_reports_garbage (exec_inv_of_receives rfl hexec) hready (Nat.add_pos_left (Nat.succ_pos 2) _)
  simp only [hstart] at hreport
  exact ⟨_, hexec, rfl, hreport⟩

/-- R121: valid frames back to back on a clean decoder. -/
theorem Decoder.rxPush_frames {ss : List (List Byte)} (hd : d.Clean) (hss : ∀ w ∈ ss, IsFrame p w) :
    d.rxPush p ss.flatten = ({ buf := [], pos := d.pos + ss.flatten.length, gcount := 0 }, frameEventsAt d.pos ss) ∧
    (frameEventsAt d.pos ss).length = ss.length := by
  induction ss generalizing d with
  | nil =>
    obtain ⟨hb, hg⟩ := hd
    refine ⟨?_, rfl⟩
    exact congrArg (·, []) ((Decoder.eq_of_buf_nil hb).trans (by rw [hg]; rfl))
  | cons w ss ih =>
    obtain ⟨hw, hrest⟩ := List.forall_mem_cons.mp hss
    obtain ⟨f, hf⟩ := hw.exists_unpack
    obtain ⟨hl, rfl⟩ := unpack?_eq_some.mp hf
    have hsize : f.pack.length = f.size := by rw [f.pack_length, hl]; rfl
    have hevents : frameEventsAt d.pos (f.pack :: ss) =
        .frame d.pos f.address f.length f.payload f.checksum :: frameEventsAt (d.pos + f.size) ss := by
      simp only [frameEventsAt, hf, hsize]
    obtain ⟨hpush, hlen⟩ := ih (d := { buf := [], pos := d.pos + f.size, gcount := 0 }) ⟨rfl, rfl⟩ hrest
    rw [List.flatten_cons, Decoder.rxPush_append, Decoder.rxPush_pack_valid hd ((isFrame_pack hl).mp hw), hpush, hevents]
    simp [hlen, hsize, Nat.add_assoc]

/-- Settles O32: an empty buffer with nothing counted is a clean decoder, and well formed. -/
theorem concatenatedFramesAllDecode : Obligations.ConcatenatedFramesAllDecode := by
  intro s ss hready hb hg hss
  have hinv : s.dec.Inv := ⟨.inl hb, .inl (by simp [hb]), by simp [hg], fun _ => hg⟩
  obtain ⟨hpush, hlen⟩ := Decoder.rxPush_frames (d := s.dec) ⟨hb, hg⟩ hss
  rw [exec_rxPush_next hready hinv, hpush]
  exact ⟨rfl, hlen⟩

/-! The verdict on a pending candidate (R111 steps 6 to 8, R125). -/

/-- R111 steps 6 to 8: the verdict on the complete candidate `f` at stream offset `k`. -/
def frameVerdict (p : CrcParams) (k : Nat) (f : Frame) : Event :=
  if frameCrc p f.body = f.checksum then .frame k f.address f.length f.payload f.checksum
  else .checksumError k f.address f.length (frameCrc p f.body) f.checksum

/-- R116: the verdict depends on the candidate and not on what follows it. -/
theorem firstVerdict_of_parse {k : Nat} {c rest : List Byte} {f : Frame} (hf : parseFrame? c = some (f, rest)) :
    firstVerdict p k c = frameVerdict p k f := by
  have hne : c ≠ [] := by
    rintro rfl
    cases hf
  rw [firstVerdict, if_neg hne, hf]
  rfl

/-- R111: on a complete candidate with nothing counted the first event is the verdict. -/
theorem drain_frameVerdict {f : Frame} {rest : List Byte} (hg : d.gcount = 0) (hm : d.buf.head? = some marker)
    (hf : parseFrame? d.buf = some (f, rest)) : ∃ ev, (drain p d).2 = frameVerdict p d.pos f :: ev := by
  have hquiet : d.garbageEvents = [] := by simp [Decoder.garbageEvents, hg]
  rw [frameVerdict]
  by_cases hc : frameCrc p f.body = f.checksum
  · rw [drain_match hm hf hc, hquiet, if_pos hc]
    exact ⟨_, rfl⟩
  · rw [drain_mismatch hm hf hc, hquiet, if_neg hc]
    exact ⟨_, rfl⟩

/-- R125: the bytes that complete a pending candidate raise its verdict first, whatever follows them. -/
theorem Decoder.rxPush_frameVerdict {f : Frame} {q rest : List Byte} (hg : d.gcount = 0) (hm : d.buf.head? = some marker)
    (hn : parseFrame? d.buf = none) (hf : parseFrame? (d.buf ++ q) = some (f, rest)) :
    ∃ ev, (d.rxPush p q).2 = frameVerdict p d.pos f :: ev := by
  obtain ⟨hl, hsplit⟩ := parseFrame?_eq_some.mp hf
  obtain ⟨r, hpack, rfl⟩ | ⟨r, hbuf, _⟩ := List.append_eq_append_iff.mp hsplit
  case inr =>
    rw [hbuf, parseFrame?_pack_append f r hl] at hn
    cases hn
  have hwhole : parseFrame? f.pack = some (f, []) := by simpa using parseFrame?_pack_append f [] hl
  have hr : r ≠ [] := by
    rintro rfl
    rw [← d.buf.append_nil, ← hpack, hwhole] at hn
    cases hn
  have hmarker : f.pack.head? = some marker := by
    rw [hpack, List.head?_append, hm]
    rfl
  obtain ⟨ev, hev⟩ := drain_frameVerdict (p := p) (d := { d with buf := f.pack }) hg hmarker hwhole
  rw [Decoder.rxPush_append, Decoder.rxPush_completes p hg hm hl hr hpack.symm, hev]
  exact ⟨_, rfl⟩

/-- R125: 258 bytes complete every pending candidate. -/
theorem Decoder.rxPush_raises_of_pending {q : List Byte} (h : d.Inv) (hb : d.buf ≠ []) (hq : 258 ≤ q.length) :
    (d.rxPush p q).2 ≠ [] := by
  obtain ⟨hm, hg⟩ := h.of_pending hb
  obtain ⟨_, h2, _, _⟩ := h
  have hlen : 259 ≤ (d.buf ++ q).length := by
    have := List.length_pos_iff.mpr hb
    rw [List.length_append]
    omega
  have hdeclared : ((d.buf ++ q).getD 2 0).toNat < 256 := BitVec.isLt _
  obtain ⟨f, rest, hf⟩ := exists_parseFrame?_of_length_le (s := d.buf ++ q) (by omega)
  obtain ⟨ev, hev⟩ := Decoder.rxPush_frameVerdict (p := p) hg hm (parseFrame?_eq_none.mpr h2) hf
  rw [hev]
  exact List.cons_ne_nil _ _

/-- Settles O35: what does not complete the candidate is stored, and 258 bytes complete it. -/
theorem pendingCandidateTakesEveryByte : Obligations.PendingCandidateTakesEveryByte := by
  intro s q hready hinv hb
  refine ⟨fun hwaits => ?_, fun i t hi hrst hreset h => (exec_dec_of_not_receives hi hrst hreset h).1, fun hq => ?_⟩
  · obtain ⟨hm, hg⟩ := hinv.of_pending hb
    rw [exec_rxPush_next hready hinv, Decoder.rxPush_wait _ q hm hg (parseFrame?_eq_none.mpr hwaits)]
  · exact ⟨_, _, exec_rxPush_next hready hinv q, rfl, Decoder.rxPush_raises_of_pending hinv hb hq⟩

end Sys2Proof.Machine

/-! One-shot decoding and what it makes of damaged frames (spec/42_decode.md R116, R123, R126). Then the statements O31, O33, O40,
O41 and O42. -/

namespace Sys2Proof.Machine

variable {p : CrcParams} {d : Decoder}

/-! The bytes before the first marker. -/

/-- R116: a sequence is its leading garbage, and then nothing or a candidate. -/
theorem exists_leadingGarbage (q : List Byte) : ∃ g c, q = g ++ c ∧ marker ∉ g ∧ (c = [] ∨ c.head? = some marker) := by
  induction q with
  | nil => exact ⟨[], [], rfl, List.not_mem_nil, .inl rfl⟩
  | cons b q ih =>
    by_cases hb : b = marker
    · exact ⟨[], b :: q, rfl, List.not_mem_nil, .inr (congrArg some hb)⟩
    · obtain ⟨g, c, rfl, hg, hc⟩ := ih
      exact ⟨b :: g, c, rfl, List.not_mem_cons_of_ne_of_not_mem (Ne.symm hb) hg, hc⟩

theorem leadingGarbage_append {g c : List Byte} (hg : marker ∉ g) (hc : c = [] ∨ c.head? = some marker) :
    leadingGarbage (g ++ c) = g := by
  have hbefore : ∀ b ∈ g, (b != marker) = true := fun b hb => bne_iff_ne.mpr fun h => hg (h ▸ hb)
  rw [leadingGarbage, List.takeWhile_append_of_pos hbefore]
  obtain rfl | hm := hc
  · simp
  · obtain ⟨c', rfl⟩ := List.head?_eq_some_iff.mp hm
    simp

/-- R116: the report of `k` bytes before the first marker. -/
def garbageBefore (k : Nat) : List Event := if k > 0 then [.desync 0 k] else []

theorem garbageBefore_of_pos {k : Nat} (hk : 0 < k) : garbageBefore k = [.desync 0 k] := if_pos hk

theorem garbageEvents_counted (k : Nat) : (Decoder.mk [] k k).garbageEvents = garbageBefore k := by
  simp [Decoder.garbageEvents, garbageBefore]

theorem garbageBefore_not_verdict (k : Nat) : ∀ e ∈ garbageBefore k, e.isVerdict = false := by
  unfold garbageBefore
  split
  · exact List.forall_mem_singleton.mpr rfl
  · exact nofun

theorem garbageBefore_nil_or_desync (k : Nat) : garbageBefore k = [] ∨ ∃ o n, garbageBefore k = [.desync o n] := by
  unfold garbageBefore
  split
  · exact .inr ⟨_, _, rfl⟩
  · exact .inl rfl

theorem oneShotReport_append {g c : List Byte} (hg : marker ∉ g) (hc : c = [] ∨ c.head? = some marker) :
    oneShotReport p (g ++ c) = garbageBefore g.length ++ [firstVerdict p g.length c] := by
  rw [oneShotReport, leadingGarbage_append hg hc, List.drop_left]
  rfl

/-! The first candidate on an empty buffer. -/

theorem firstVerdict_of_wait {k : Nat} {c : List Byte} (hm : c.head? = some marker) (hn : parseFrame? c = none) :
    firstVerdict p k c = .truncated k c.length := by
  rw [firstVerdict, if_neg (List.ne_nil_of_mem (List.mem_of_mem_head? hm)), hn]

theorem Decoder.rxPush_candidate_waits {c : List Byte} (hb : d.buf = []) (hm : c.head? = some marker) (hn : parseFrame? c = none) :
    d.rxPush p c = ({ buf := c, pos := d.pos, gcount := 0 }, d.garbageEvents) := by
  obtain ⟨q, rfl⟩ := List.head?_eq_some_iff.mp hm
  have hstored := Decoder.rxPush_wait p q (d := { buf := [marker], pos := d.pos, gcount := 0 }) rfl rfl hn
  rw [Decoder.rxPush_cons, Decoder.rxByte_marker hb, hstored, List.append_nil]
  rfl

theorem Decoder.rxPush_candidate_verdict {c rest : List Byte} {f : Frame} (hb : d.buf = []) (hm : c.head? = some marker)
    (hf : parseFrame? c = some (f, rest)) : ∃ ev, (d.rxPush p c).2 = d.garbageEvents ++ frameVerdict p d.pos f :: ev := by
  obtain ⟨q, rfl⟩ := List.head?_eq_some_iff.mp hm
  obtain ⟨ev, hev⟩ := Decoder.rxPush_frameVerdict (p := p) (d := { buf := [marker], pos := d.pos, gcount := 0 }) rfl rfl rfl hf
  rw [Decoder.rxPush_cons, Decoder.rxByte_marker hb, hev]
  exact ⟨ev, rfl⟩

/-- R116: what the scratch decoder makes of a sequence: the verdict on a complete first candidate comes first; an incomplete one is
pending at the end; without a candidate all is counted. -/
theorem scratch_cases (p : CrcParams) (q : List Byte) : ∃ k,
    (∃ f ev, (Decoder.empty.rxPush p q).2 = garbageBefore k ++ frameVerdict p k f :: ev ∧
      oneShotReport p q = garbageBefore k ++ [frameVerdict p k f]) ∨
    (∃ c, c ≠ [] ∧ Decoder.empty.rxPush p q = ({ buf := c, pos := k, gcount := 0 }, garbageBefore k) ∧
      oneShotReport p q = garbageBefore k ++ [.truncated k c.length]) ∨
    (k = q.length ∧ Decoder.empty.rxPush p q = ({ buf := [], pos := k, gcount := k }, []) ∧
      oneShotReport p q = garbageBefore k ++ [.noMarker k]) := by
  obtain ⟨g, c, rfl, hg, hc⟩ := exists_leadingGarbage q
  have hpush : Decoder.empty.rxPush p (g ++ c) = Decoder.rxPush p ⟨[], g.length, g.length⟩ c := by
    rw [Decoder.rxPush_append, Decoder.rxPush_noMarker rfl hg, Decoder.empty_pos, Decoder.empty_gcount, Nat.zero_add]
    rfl
  refine ⟨g.length, ?_⟩
  rw [hpush, oneShotReport_append hg hc, ← garbageEvents_counted]
  obtain rfl | hm := hc
  · exact .inr (.inr ⟨by rw [List.append_nil], rfl, rfl⟩)
  · cases hf : parseFrame? c with
    | none =>
      exact .inr (.inl ⟨c, List.ne_nil_of_mem (List.mem_of_mem_head? hm), Decoder.rxPush_candidate_waits rfl hm hf,
        by rw [firstVerdict_of_wait hm hf]⟩)
    | some fr =>
      obtain ⟨ev, hev⟩ := Decoder.rxPush_candidate_verdict (p := p) (d := ⟨[], g.length, g.length⟩) rfl hm hf
      exact .inl ⟨fr.1, ev, hev, by rw [firstVerdict_of_parse hf]⟩

/-! The cut after the first verdict. -/

theorem frameVerdict_isVerdict (p : CrcParams) (k : Nat) (f : Frame) : (frameVerdict p k f).isVerdict = true := by
  unfold frameVerdict
  split <;> rfl

theorem cutAfterVerdict_of_first {pre post : List Event} {v : Event} (hpre : ∀ e ∈ pre, e.isVerdict = false)
    (hv : v.isVerdict = true) : cutAfterVerdict (pre ++ v :: post) = some (pre ++ [v]) := by
  induction pre with
  | nil => exact if_pos hv
  | cons e pre ih =>
    obtain ⟨he, hrest⟩ := List.forall_mem_cons.mp hpre
    simp [cutAfterVerdict, he, ih hrest]

theorem cutAfterVerdict_of_none {ev : List Event} (h : ∀ e ∈ ev, e.isVerdict = false) : cutAfterVerdict ev = none := by
  induction ev with
  | nil => rfl
  | cons e ev ih =>
    obtain ⟨he, hrest⟩ := List.forall_mem_cons.mp h
    simp [cutAfterVerdict, he, ih hrest]

/-- R116: the report on the first marker is the scratch decoder's up to the first verdict, or all of it and `NoMarker`. -/
theorem oneShotReport_cuts_scratchEvents (p : CrcParams) (q : List Byte) :
    (∃ pre v post, scratchEvents p q = pre ++ v :: post ∧ v.isVerdict = true ∧ (∀ e ∈ pre, e.isVerdict = false) ∧
      oneShotReport p q = pre ++ [v]) ∨
    ((∀ e ∈ scratchEvents p q, e.isVerdict = false) ∧ oneShotReport p q = scratchEvents p q ++ [.noMarker q.length]) := by
  have hquiet := garbageBefore_not_verdict
  obtain ⟨k, ⟨f, ev, hpush, hreport⟩ | ⟨c, hc, hpush, hreport⟩ | ⟨rfl, hpush, hreport⟩⟩ := scratch_cases p q
  · refine .inl ⟨garbageBefore k, frameVerdict p k f, ev ++ (Decoder.empty.rxPush p q).1.rxFlush.2, ?_,
      frameVerdict_isVerdict p k f, hquiet k, hreport⟩
    rw [scratchEvents, hpush, List.append_assoc]
    rfl
  · refine .inl ⟨garbageBefore k, .truncated k c.length, [], ?_, rfl, hquiet k, hreport⟩
    have hpending : c.length > 0 := List.length_pos_iff.mpr hc
    rw [scratchEvents, hpush, Decoder.rxFlush_eq (fun _ => rfl)]
    simp [hpending]
  · have hscratch : scratchEvents p q = garbageBefore q.length := by
      rw [scratchEvents, hpush, ← garbageEvents_counted]
      exact List.append_nil _
    exact .inr ⟨hscratch ▸ hquiet _, hscratch ▸ hreport⟩

theorem decodeOnce_eq_oneShotReport (p : CrcParams) (q : List Byte) : decodeOnce p q = oneShotReport p q := by
  rw [decodeOnce]
  obtain ⟨pre, v, post, hscratch, hv, hpre, hreport⟩ | ⟨hnone, hreport⟩ := oneShotReport_cuts_scratchEvents p q
  · rw [hscratch, cutAfterVerdict_of_first hpre hv, hreport]
  · rw [cutAfterVerdict_of_none hnone, hreport]

theorem exec_decode_oneShotReport (q : List Byte) (s : State) :
    exec (.decode q) s = .next { s with result := .events (oneShotReport s.cfg.crc q) } := by
  rw [exec_decode, decodeOnce_eq_oneShotReport]

/-- Settles O31: the cut of the scratch decoder's events is the report on the first marker. -/
theorem decodeJudgesTheFirstMarkerOnly : Obligations.DecodeJudgesTheFirstMarkerOnly :=
  fun q s => ⟨rfl, exec_decode_oneShotReport q s, oneShotReport_cuts_scratchEvents s.cfg.crc q, rfl⟩

/-! One-shot and streaming (R123). -/

/-- R123: a last event that is not of the end of the input is a verdict that streaming raises too. -/
theorem decodeOnce_isPrefix {q : List Byte} {pre : List Event} {v : Event} (h : decodeOnce p q = pre ++ [v])
    (htruncated : ∀ o n, v ≠ .truncated o n) (hnoMarker : ∀ n, v ≠ .noMarker n) :
    decodeOnce p q <+: (Decoder.empty.rxPush p q).2 := by
  rw [decodeOnce_eq_oneShotReport] at h ⊢
  obtain ⟨k, ⟨f, ev, hpush, hreport⟩ | ⟨c, _, _, hreport⟩ | ⟨_, _, hreport⟩⟩ := scratch_cases p q
  · rw [hpush, hreport]
    exact ⟨ev, List.append_assoc ..⟩
  · exact absurd (List.append_singleton_inj.mp (h.symm.trans hreport)).2 (htruncated k c.length)
  · exact absurd (List.append_singleton_inj.mp (h.symm.trans hreport)).2 (hnoMarker k)

/-- R123: where the last event is not the verdict on a complete candidate, streaming reports no more than the leading garbage. -/
theorem rxPush_nil_or_desync {q : List Byte} {pre : List Event} {v : Event} (h : decodeOnce p q = pre ++ [v])
    (hv : ∀ k f, v ≠ frameVerdict p k f) :
    (Decoder.empty.rxPush p q).2 = [] ∨ ∃ o n, (Decoder.empty.rxPush p q).2 = [.desync o n] := by
  rw [decodeOnce_eq_oneShotReport] at h
  obtain ⟨k, ⟨f, _, _, hreport⟩ | ⟨c, _, hpush, _⟩ | ⟨_, hpush, _⟩⟩ := scratch_cases p q
  · exact absurd (List.append_singleton_inj.mp (h.symm.trans hreport)).2 (hv k f)
  · rw [hpush]
    exact garbageBefore_nil_or_desync k
  · exact .inl (by rw [hpush])

theorem truncated_ne_frameVerdict (o n k : Nat) (f : Frame) : Event.truncated o n ≠ frameVerdict p k f := by
  unfold frameVerdict
  split <;> exact nofun

theorem noMarker_ne_frameVerdict (n k : Nat) (f : Frame) : Event.noMarker n ≠ frameVerdict p k f := by
  unfold frameVerdict
  split <;> exact nofun

/-- R120, R123: from reset, each byte of a push is in an event, counted or pending. -/
theorem rxPush_empty_accounted (p : CrcParams) (q : List Byte) :
    accounted (Decoder.empty.rxPush p q).2 + (Decoder.empty.rxPush p q).1.gcount + (Decoder.empty.rxPush p q).1.buf.length =
      q.length := by
  obtain ⟨_, _, hcounted, _⟩ := Decoder.rxPush_inv p q Decoder.empty_inv
  have hend := (Decoder.rxPush_tiles p (d := Decoder.empty) (Nat.le_refl 0) q).end_eq
  have hpos := (Decoder.rxPush_receives p Decoder.empty q).pos_add_length
  simp only [Decoder.reported, Decoder.empty_pos, Decoder.empty_gcount, Decoder.empty_buf, List.length_nil] at hend hpos
  omega

/-- Settles O33: by the last event of the one-shot report. -/
theorem oneShotAgreesWithStreaming : Obligations.OneShotAgreesWithStreaming := by
  refine fun p q => ⟨fun pre o a l pl c h => decodeOnce_isPrefix h nofun nofun,
    fun pre o a l c r h => decodeOnce_isPrefix h nofun nofun, fun pre h => ⟨?_, rxPush_empty_accounted p q⟩⟩
  obtain ⟨o, n, h⟩ | ⟨n, h⟩ := h
  · exact rxPush_nil_or_desync h (truncated_ne_frameVerdict o n)
  · exact rxPush_nil_or_desync h (noMarker_ne_frameVerdict n)

/-! One inverted bit (R126). -/

@[simp] theorem flipBit_length (s : List Byte) (i k : Nat) : (flipBit s i k).length = s.length := List.length_set

theorem flipBit_getD_of_ne {i j : Nat} (h : i ≠ j) (s : List Byte) (k : Nat) : (flipBit s i k).getD j 0 = s.getD j 0 := by
  simp [flipBit, List.getElem?_set_ne h]

theorem flipBit_getD_self {s : List Byte} {i : Nat} (hi : i < s.length) (k : Nat) :
    (flipBit s i k).getD i 0 = s.getD i 0 ^^^ 1#8 <<< k := by
  simp [flipBit, hi]

theorem xor_singleBit_ne (b : Byte) {k : Nat} (hk : k < 8) : b ^^^ 1#8 <<< k ≠ b := by
  intro h
  have hzero : 1#8 <<< k = 0#8 := (BitVec.xor_right_inj b).mp (h.trans BitVec.xor_zero.symm)
  interval_cases k <;> exact absurd hzero (by decide)

theorem flipBit_head? {s : List Byte} {i : Nat} (hi : 1 ≤ i) (k : Nat) : (flipBit s i k).head? = s.head? := by
  obtain _ | ⟨b, s⟩ := s
  · rfl
  · obtain ⟨j, rfl⟩ := Nat.exists_eq_add_of_le' hi
    rw [flipBit_cons_succ]
    rfl

/-- R62: a sequence of exactly the size that its third byte declares is one candidate, complete. -/
theorem parseFrame?_of_length_eq {s : List Byte} (h : s.length = 4 + (s.getD 2 0).toNat) :
    ∃ f : Frame, parseFrame? s = some (f, []) := by
  obtain ⟨f, rest, hf⟩ := exists_parseFrame?_of_length_le h.ge
  obtain ⟨hl, hs⟩ := parseFrame?_eq_some.mp hf
  have hsize := congrArg List.length hs
  rw [List.length_append, f.pack_length, hl, h, parseFrame?_length hf] at hsize
  exact ⟨f, by rw [hf, List.eq_nil_of_length_eq_zero (show rest.length = 0 by omega)]⟩

/-- R116: a sequence that begins with a complete candidate is judged on it at offset 0. -/
theorem oneShotReport_of_parse {c rest : List Byte} {f : Frame} (hm : c.head? = some marker) (hf : parseFrame? c = some (f, rest)) :
    oneShotReport p c = [frameVerdict p 0 f] := by
  rw [← firstVerdict_of_parse hf]
  exact oneShotReport_append List.not_mem_nil (.inr hm)

theorem oneShotReport_of_wait {c : List Byte} (hm : c.head? = some marker) (hn : parseFrame? c = none) :
    oneShotReport p c = [.truncated 0 c.length] := by
  rw [← firstVerdict_of_wait hm hn]
  exact oneShotReport_append List.not_mem_nil (.inr hm)

theorem frameVerdict_mismatch {k : Nat} {f : Frame} (hc : frameCrc p f.body ≠ f.checksum) :
    frameVerdict p k f = .checksumError k f.address f.length (frameCrc p f.body) f.checksum := if_neg hc

theorem frameVerdict_match {k : Nat} {f : Frame} (hc : frameCrc p f.body = f.checksum) :
    frameVerdict p k f = .frame k f.address f.length f.payload f.checksum := if_pos hc

theorem encodedFrame_eq_pack_sentFrame (p : CrcParams) (a : Byte) (q : List Byte) :
    encodedFrame p a q = (sentFrame p a q).pack := encodedFrame_eq_pack p a q

theorem encodedFrame_length (p : CrcParams) (a : Byte) (q : List Byte) : (encodedFrame p a q).length = 4 + q.length := by
  rw [encodedFrame_eq_pack_sentFrame, Frame.pack_length]
  rfl

theorem encodedFrame_head? (p : CrcParams) (a : Byte) (q : List Byte) : (encodedFrame p a q).head? = some marker := rfl

theorem encodedFrame_getD_two (p : CrcParams) (a : Byte) (q : List Byte) : (encodedFrame p a q).getD 2 0 = lengthByte q := rfl

/-- R93, R126 (a): behind the marker and outside the length byte an inverted bit leaves a candidate of the frame's size, with a
checksum that does not match. -/
theorem flipBit_encodedFrame_mismatch {p : CrcParams} (hpoly : p.poly ≠ 0) (a : Byte) {q : List Byte} (hq : PayloadFits q)
    {i k : Nat} (hi : i = 1 ∨ 3 ≤ i) (hlt : i < 4 + q.length) (hk : k < 8) :
    ∃ f, parseFrame? (flipBit (encodedFrame p a q) i k) = some (f, []) ∧ frameCrc p f.body ≠ f.checksum := by
  have hlength : (flipBit (encodedFrame p a q) i k).length = 4 + ((flipBit (encodedFrame p a q) i k).getD 2 0).toNat := by
    rw [flipBit_length, flipBit_getD_of_ne (by omega), encodedFrame_length, encodedFrame_getD_two, lengthByte_toNat hq]
  obtain ⟨f, hf⟩ := parseFrame?_of_length_eq hlength
  obtain ⟨_, hpack⟩ := parseFrame?_eq_some.mp hf
  have hcaught := crcOk_flipBit_pack (i := i) (k := k) hpoly (sentFrame_valid p a hq) (by omega) (by rwa [Frame.pack_length]) hk
  rw [← encodedFrame_eq_pack_sentFrame, hpack, List.append_nil, Frame.pack, List.dropLast_concat, List.getLastD_concat, crcOk,
    beq_eq_false_iff_ne] at hcaught
  exact ⟨f, hf, hcaught⟩

/-- Settles O40: the damaged bytes are one complete candidate. -/
theorem oneBitErrorOutsideHeaderIsCaught : Obligations.OneBitErrorOutsideHeaderIsCaught := by
  intro s a q i k hq hi hlt hk
  obtain ⟨f, hf, hc⟩ := flipBit_encodedFrame_mismatch s.cfg.polyNonzero a hq hi hlt hk
  have hm := (flipBit_head? (show 1 ≤ i by omega) k).trans (encodedFrame_head? s.cfg.crc a q)
  refine ⟨f.address, f.length, frameCrc s.cfg.crc f.body, f.checksum, ?_⟩
  rw [exec_decode_oneShotReport, oneShotReport_of_parse hm hf, frameVerdict_mismatch hc]

/-- R126 (b): a candidate that its length byte cuts short is judged on its first `4 + L'` bytes. -/
theorem exists_parseFrame?_of_shorter {w : List Byte} (h : 4 + (w.getD 2 0).toNat ≤ w.length) :
    ∃ f rest, parseFrame? w = some (f, rest) ∧ f.address = w.getD 1 0 ∧ f.body = w.take (3 + (w.getD 2 0).toNat) ∧
      f.checksum = w.getD (3 + (w.getD 2 0).toNat) 0 := by
  obtain ⟨f, rest, hf⟩ := exists_parseFrame?_of_length_le h
  have hlast : f.size - 1 = 3 + (w.getD 2 0).toNat := by
    rw [parseFrame?_length hf, Frame.size]
    omega
  rw [← hlast, parseFrame?_address hf, parseFrame?_body hf, parseFrame?_checksum hf]
  exact ⟨f, rest, hf, rfl, rfl, rfl⟩

set_option maxRecDepth 2000 in
/-- R126 (b), 95 section 3.8 group S: under REF, a frame whose payload holds the checksum of a shorter one. -/
theorem falseAcceptance_encoded :
    encodedFrame CrcParams.ref 0x01 [0x00, 0x1F, 0x55] = [0xF7, 0x01, 0x03, 0x00, 0x1F, 0x55, 0x80] := by decide

set_option maxRecDepth 2000 in
/-- R126 (b), 95 section 3.8 group S: with bit 1 of its length byte inverted the shorter frame is accepted. -/
theorem falseAcceptance_decoded :
    decodeOnce CrcParams.ref [0xF7, 0x01, 0x01, 0x00, 0x1F, 0x55, 0x80] = [.frame 0 0x01 0x01 [0x00] 0x1F] := by decide

/-- Settles O41: the length byte changes, and so does where the candidate ends. -/
theorem lengthBitErrorIsNotAlwaysCaught : Obligations.LengthBitErrorIsNotAlwaysCaught := by
  refine ⟨fun s a q w k L' hq hk hw hL' => ?_, falseAcceptance_encoded, falseAcceptance_decoded⟩
  have hm : w.head? = some marker := hw ▸ flipBit_head? (show 1 ≤ 2 by decide) k
  have hlen : w.length = 4 + q.length := by rw [hw, flipBit_length, encodedFrame_length]
  have haddress : w.getD 1 0 = a := by rw [hw, flipBit_getD_of_ne (show 2 ≠ 1 by decide)]; rfl
  have hlength : w.getD 2 0 = lengthByte q ^^^ 1#8 <<< k := by
    rw [hw, flipBit_getD_self (by rw [encodedFrame_length]; omega), encodedFrame_getD_two]
  refine ⟨fun hsame => ?_, fun hlonger => ?_, fun hshorter => ?_⟩
  · rw [hL', hlength, ← lengthByte_toNat hq] at hsame
    exact xor_singleBit_ne _ hk (BitVec.eq_of_toNat_eq hsame)
  · have hn : parseFrame? w = none := parseFrame?_eq_none.mpr (.inr (by omega))
    rw [exec_decode_oneShotReport, oneShotReport_of_wait hm hn, hlen, Decoder.rxPush_candidate_waits rfl hm hn]
    exact ⟨rfl, rfl⟩
  · obtain ⟨f, rest, hf, rfl, hbody, hchecksum⟩ := haddress ▸ exists_parseFrame?_of_shorter (w := w) (by omega)
    rw [hL', ← hbody, ← hchecksum, exec_decode_oneShotReport, oneShotReport_of_parse hm hf]
    exact ⟨fun hc => ⟨_, _, _, by rw [frameVerdict_match hc]⟩, fun hc => ⟨_, _, _, by rw [frameVerdict_mismatch hc]⟩⟩

/-- Settles O42: the first byte is no longer a marker, so the leading garbage reaches to the next one, or to the end. -/
theorem markerBitErrorLosesTheFrame : Obligations.MarkerBitErrorLosesTheFrame := by
  intro s a q w k _ hk hw
  rw [exec_decode_oneShotReport]
  refine ⟨fun hrest => ?_, fun j hj hnext hbefore => ?_⟩
  · have hcons : w = (marker ^^^ 1#8 <<< k) :: w.drop 1 := by rw [hw]; rfl
    have hnone : marker ∉ w := by
      rw [hcons]
      exact List.not_mem_cons_of_ne_of_not_mem (xor_singleBit_ne marker hk).symm hrest
    have hreport := oneShotReport_append (p := s.cfg.crc) hnone (.inl rfl)
    have hlen : w.length > 0 := by rw [hcons]; exact Nat.succ_pos _
    rw [List.append_nil, garbageBefore_of_pos hlen] at hreport
    rw [hreport]
    rfl
  · have hlen : (w.take j).length = j := List.length_take_of_le (List.getElem?_eq_some_iff.mp hnext).1.le
    have hreport := oneShotReport_append (p := s.cfg.crc) hbefore (.inr (List.head?_drop.trans hnext))
    rw [List.take_append_drop, hlen, garbageBefore_of_pos hj] at hreport
    rw [hreport]
    rfl

end Sys2Proof.Machine

/-! The events and the other results, operation by operation (spec/60_exceptions.md R140 to R146). Then the statements O38 and O39. -/

namespace Sys2Proof.Machine

variable {p : CrcParams} {i : Instr} {d : Decoder}

/-! The table of R140, with the fields of R141 to R145. -/

/-- R140: the operations that bring bytes and judge the candidates in them; FRAME is one by the model's choice (log 4). -/
def JudgesCandidates (i : Instr) : Prop :=
  (∃ b, i = .rxByte b) ∨ (∃ q, i = .rxPush q) ∨ (∃ q, i = .decode q) ∨ ∃ a l q c, i = .frame a l q c

/-- R140 to R145: the operation `i` may raise the event under the parameters `p`: its row names the operation, and its fields are as
its rule says. -/
def MayRaise (p : CrcParams) (i : Instr) : Event → Prop
  | .frame _ a l pl c => JudgesCandidates i ∧ pl.length = l.toNat ∧ c = frameCrc p ([marker, a, l] ++ pl)
  | .desync _ n => (JudgesCandidates i ∨ i = .rxFlush) ∧ 1 ≤ n
  | .checksumError _ _ _ c r => JudgesCandidates i ∧ c ≠ r
  | .truncated _ n => (i = .rxFlush ∨ ∃ q, i = .decode q) ∧ 1 ≤ n ∧ n ≤ 258
  | .noMarker n => ∃ q, i = .decode q ∧ q.length = n ∧ marker ∉ q

/-! Bytes that arrive. -/

/-- R143: the report of counted garbage, which is of one byte at least. -/
theorem Decoder.garbageEvents_mayRaise (hi : JudgesCandidates i ∨ i = .rxFlush) (d : Decoder) :
    ∀ e ∈ d.garbageEvents, MayRaise p i e := by
  unfold Decoder.garbageEvents
  split
  next hcounted => exact List.forall_mem_singleton.mpr ⟨hi, hcounted⟩
  next => exact nofun

theorem mayRaise_frame (hi : JudgesCandidates i) (k : Nat) {f : Frame} (hf : FrameValid p f) :
    MayRaise p i (.frame k f.address f.length f.payload f.checksum) := by
  obtain ⟨hm, hl, hc⟩ := hf
  exact ⟨hi, hl, hm ▸ hc⟩

theorem Decoder.rxPush_mayRaise (hi : JudgesCandidates i) (q : List Byte) (d : Decoder) :
    ∀ e ∈ (d.rxPush p q).2, MayRaise p i e := by
  induction q generalizing d with
  | nil => exact nofun
  | cons b q ih =>
    have hfirst : ∀ e ∈ (d.rxByte p b).2, MayRaise p i e :=
      drain_raises p (MayRaise p i) (fun _ _ hn => ⟨.inl hi, hn⟩) (fun k _ => mayRaise_frame hi k)
        (fun _ _ _ _ _ hne => ⟨hi, hne⟩) (d.append b)
    exact List.forall_mem_append.mpr ⟨hfirst, ih _⟩

/-! The end of the input. -/

/-- R144: a candidate that waits has a byte at least, and one less than the largest frame at most. -/
theorem mayRaise_truncated (hi : i = .rxFlush ∨ ∃ q, i = .decode q) (hpending : d.buf ≠ []) (h2 : d.Inv2) :
    MayRaise p i (.truncated d.pos d.buf.length) :=
  ⟨hi, List.length_pos_iff.mpr hpending, h2.buf_length_le⟩

theorem Decoder.rxFlush_mayRaise (h2 : d.Inv2) : ∀ e ∈ d.rxFlush.2, MayRaise p .rxFlush e := by
  refine List.forall_mem_append.mpr ⟨Decoder.garbageEvents_mayRaise (.inr rfl) d, ?_⟩
  unfold Decoder.truncatedEvents
  split
  next hpending => exact List.forall_mem_singleton.mpr (mayRaise_truncated (.inl rfl) (List.length_pos_iff.mp hpending) h2)
  next => exact nofun

/-! One-shot decoding. -/

theorem parseFrame?_marker {c rest : List Byte} {f : Frame} (hm : c.head? = some marker) (hf : parseFrame? c = some (f, rest)) :
    f.marker = marker := by
  obtain ⟨_, rfl⟩ := parseFrame?_eq_some.mp hf
  rw [Frame.pack_eq] at hm
  exact Option.some.inj hm

theorem frameVerdict_mayRaise (hi : JudgesCandidates i) (k : Nat) {f : Frame} (hm : f.marker = marker)
    (hl : f.payload.length = f.length.toNat) : MayRaise p i (frameVerdict p k f) := by
  by_cases hc : frameCrc p f.body = f.checksum
  · rw [frameVerdict_match hc]
    exact mayRaise_frame hi k ⟨hm, hl, hc.symm⟩
  · rw [frameVerdict_mismatch hc]
    exact ⟨hi, hc⟩

/-- R116: DECODE's last event: no candidate, one that its operand cuts short, or the verdict on a complete one. -/
theorem firstVerdict_mayRaise {g c : List Byte} (hg : marker ∉ g) (hc : c = [] ∨ c.head? = some marker) :
    MayRaise p (.decode (g ++ c)) (firstVerdict p g.length c) := by
  obtain rfl | hm := hc
  · rw [List.append_nil]
    exact ⟨g, rfl, rfl, hg⟩
  · cases hf : parseFrame? c with
    | none =>
      rw [firstVerdict_of_wait hm hf]
      exact mayRaise_truncated (d := ⟨c, g.length, 0⟩) (.inr ⟨_, rfl⟩) (List.ne_nil_of_mem (List.mem_of_mem_head? hm))
        (parseFrame?_eq_none.mp hf)
    | some fr =>
      rw [firstVerdict_of_parse hf]
      exact frameVerdict_mayRaise (.inr (.inr (.inl ⟨_, rfl⟩))) _ (parseFrame?_marker hm hf) (parseFrame?_eq_some.mp hf).1

theorem oneShotReport_mayRaise (q : List Byte) : ∀ e ∈ oneShotReport p q, MayRaise p (.decode q) e := by
  obtain ⟨g, c, rfl, hg, hc⟩ := exists_leadingGarbage q
  rw [oneShotReport_append hg hc, ← garbageEvents_counted]
  exact List.forall_mem_append.mpr ⟨Decoder.garbageEvents_mayRaise (.inl (.inr (.inr (.inl ⟨_, rfl⟩)))) _,
    List.forall_mem_singleton.mpr (firstVerdict_mayRaise hg hc)⟩

/-! The operations of the block. -/

/-- A receive operation that completes raises what its function raises on a decoder with INV2. -/
theorem mayRaise_of_receiving {s t : State} {f : Decoder → Decoder × List Event}
    (hf : s.dec.Inv2 → ∀ e ∈ (f s.dec).2, MayRaise p i e) (h : receiving s f = .next t) :
    ∃ ev, t.result = .events ev ∧ ∀ e ∈ ev, MayRaise p i e := by
  obtain ⟨_, ⟨_, h2, _, _⟩, rfl⟩ := receiving_eq_next h
  exact ⟨_, rfl, hf h2⟩

/-- R140, R146: an operation that completes returns a list of events that it may raise, or no events, and then a refusal only where it
is TX.ENC. -/
theorem exec_returns {s t : State} (h : exec i s = .next t) :
    (∃ ev, t.result = .events ev ∧ ∀ e ∈ ev, MayRaise s.cfg.crc i e) ∨
    (t.result.eventList = [] ∧ ∀ n, t.result = .payloadTooLong n → ∃ a q, i = .txEnc a q) := by
  cases i with
  | frame a l q c =>
    rw [exec_frame] at h
    exact .inl (mayRaise_of_receiving (fun _ => Decoder.rxPush_mayRaise (.inr (.inr (.inr ⟨a, l, q, c, rfl⟩))) _ _) h)
  | rxByte b =>
    rw [exec_rxByte_eq_rxPush, exec_rxPush] at h
    exact .inl (mayRaise_of_receiving (fun _ => Decoder.rxPush_mayRaise (.inl ⟨b, rfl⟩) _ _) h)
  | rxPush q =>
    rw [exec_rxPush] at h
    exact .inl (mayRaise_of_receiving (fun _ => Decoder.rxPush_mayRaise (.inr (.inl ⟨q, rfl⟩)) _ _) h)
  | rxFlush =>
    rw [exec_rxFlush] at h
    exact .inl (mayRaise_of_receiving Decoder.rxFlush_mayRaise h)
  | decode q =>
    rw [exec_decode_oneShotReport] at h
    cases h
    exact .inl ⟨_, rfl, oneShotReport_mayRaise q⟩
  | txEnc a q =>
    cases h
    refine .inr ⟨?_, fun _ _ => ⟨a, q, rfl⟩⟩
    rw [State.returning_result]
    split <;> rfl
  | crcUpd | crcGet | crcChk =>
    simp only [exec_crcUpd, exec_crcGet, exec_crcChk] at h
    obtain ⟨_, rfl⟩ := readingCrc_eq_next h
    exact .inr ⟨rfl, nofun⟩
  | reset | crcClr | crcBlk | rxRst =>
    cases h
    exact .inr ⟨rfl, nofun⟩

theorem exec_mayRaise {s t : State} (h : exec i s = .next t) : ∀ e ∈ t.result.eventList, MayRaise s.cfg.crc i e := by
  obtain ⟨ev, hev, hraise⟩ | ⟨hnone, _⟩ := exec_returns h
  · rwa [hev]
  · rw [hnone]
    exact nofun

theorem exec_eq_payloadTooLong {s t : State} {n : Nat} (h : exec i s = .next t) (hr : t.result = .payloadTooLong n) :
    ∃ a q, i = .txEnc a q := by
  obtain ⟨ev, hev, _⟩ | ⟨_, hrefusal⟩ := exec_returns h
  · cases hev.symm.trans hr
  · exact hrefusal n hr

/-! The statements. -/

/-- Settles O38: what an operation may raise has sound fields. -/
theorem eventFieldsAreSound : Obligations.EventFieldsAreSound := by
  intro i s t ev h hev e he
  have hraise := exec_mayRaise h e (hev ▸ he)
  cases e with
  | frame | desync | checksumError | truncated => exact hraise.2
  | noMarker => exact hraise

/-- Settles O39: the refusal is TX.ENC's, and each event's row names the operations that may raise it. -/
theorem eachOperationRaisesOnlyItsEvents : Obligations.EachOperationRaisesOnlyItsEvents := by
  refine fun i s t h => ⟨fun n => exec_eq_payloadTooLong h, fun e he => ?_⟩
  have hraise := exec_mayRaise h e he
  cases e with
  | frame => exact ⟨fun _ => hraise.1, nofun, nofun, nofun, nofun⟩
  | desync =>
    refine ⟨nofun, fun _ => ?_, nofun, nofun, nofun⟩
    obtain ⟨(hbyte | hpush | hdecode | hframe) | hflush, _⟩ := hraise
    · exact .inl hbyte
    · exact .inr (.inl hpush)
    · exact .inr (.inr (.inr (.inl hdecode)))
    · exact .inr (.inr (.inr (.inr hframe)))
    · exact .inr (.inr (.inl hflush))
  | checksumError => exact ⟨nofun, nofun, fun _ => hraise.1, nofun, nofun⟩
  | truncated => exact ⟨nofun, nofun, nofun, fun _ => hraise.1, nofun⟩
  | noMarker =>
    obtain ⟨q, hq, _⟩ := hraise
    exact ⟨nofun, nofun, nofun, nofun, fun _ => ⟨q, hq⟩⟩

end Sys2Proof.Machine

/-! Reset, the state before it, and whole runs (spec/70_reset_and_hazards.md R170, R171, R190, R191). Then the statements O52, O53, O1
and O4. -/

namespace Sys2Proof.Machine

/-! Runs in operational states. -/

/-- R33, R171: RESET makes every register hold a specified, well-formed value, whatever the state was. -/
theorem exec_reset_operational {s t : State} (h : exec .reset s = .next t) : t.Operational := by
  cases h
  exact ⟨rfl, rfl, Decoder.empty_inv⟩

/-- R47, R191, as a step: in an operational state every operation completes, in an operational state. -/
theorem exec_completes_operational (i : Instr) {s : State} (hs : s.Operational) : ∃ t, exec i s = .next t ∧ t.Operational := by
  obtain ⟨t, hexec, hsameDec, hsameCrc⟩ := exec_completes i hs
  obtain ⟨hdec, hcrc, hinv⟩ := hs
  have hready : t.decoderReady = true := hsameDec.trans hdec
  exact ⟨t, hexec, hready, hsameCrc.trans hcrc, exec_keeps_inv (fun _ => hinv) hexec hready⟩

/-- R191: a run from an operational state completes, in an operational state, with one result for each operation. -/
theorem runOps_completes_operational (ops : List Instr) {s : State} (hs : s.Operational) :
    ∃ t rs, runOps ops s = some (t, rs) ∧ rs.length = ops.length ∧ t.Operational := by
  induction ops generalizing s with
  | nil => exact ⟨s, [], rfl, rfl, hs⟩
  | cons i ops ih =>
    obtain ⟨u, hexec, hu⟩ := exec_completes_operational i hs
    obtain ⟨t, rs, hrun, hlen, ht⟩ := ih hu
    refine ⟨t, u.result :: rs, ?_, congrArg (· + 1) hlen, ht⟩
    rw [runOps_cons hexec, hrun]
    rfl

/-- Settles O52: RESET leaves an operational state, from which the rest of the run completes. -/
theorem runFromResetNeverStops : Obligations.RunFromResetNeverStops := by
  intro ops s
  have hreset := exec_reset s
  obtain ⟨t, rs, hrun, hlen, ht⟩ := runOps_completes_operational ops (exec_reset_operational hreset)
  refine ⟨t, .none :: rs, ?_, congrArg (· + 1) hlen, ht⟩
  rw [runOps_cons hreset, hrun]
  rfl

/-! The end of a run. -/

/-- R191: the last operation of a run that completes leaves the run's last state. -/
theorem exec_last_of_runOps {ops : List Instr} {i : Instr} {s t : State} {rs : List Result}
    (h : runOps (ops ++ [i]) s = some (t, rs)) : ∃ u, exec i u = .next t := by
  induction ops generalizing s rs with
  | nil =>
    obtain ⟨u, _, hexec, hrun, _⟩ := runOps_cons_eq_some h
    cases hrun
    exact ⟨s, hexec⟩
  | cons j ops ih =>
    obtain ⟨_, _, _, hrun, _⟩ := runOps_cons_eq_some h
    exact ih hrun

/-- R114: whatever the decoder held, the flush discards all of `buf` and clears `gcount`. -/
theorem Decoder.rxFlush_clean (d : Decoder) : d.rxFlush.1.Clean := ⟨List.drop_length, rfl⟩

theorem exec_rxFlush_clean {s t : State} (h : exec .rxFlush s = .next t) : t.dec.Clean := by
  obtain ⟨_, _, rfl⟩ := receiving_eq_next (exec_rxFlush s ▸ h)
  exact Decoder.rxFlush_clean s.dec

/-- Settles O53: the run's last state is the one that RX.FLUSH leaves. -/
theorem runEndingInFlushEndsClean : Obligations.RunEndingInFlushEndsClean := by
  intro ops s t rs hrun
  obtain ⟨u, hexec⟩ := exec_last_of_runOps hrun
  exact exec_rxFlush_clean hexec

/-! RESET, and the state before the first one. -/

/-- Settles O1: RESET writes the empty decoder, which is in HUNT and meets INV1 to INV4. -/
theorem resetClearsDecoderAndLoadsCrcInit : Obligations.ResetClearsDecoderAndLoadsCrcInit :=
  ⟨rfl, fun s => ⟨exec_reset s, rfl, Decoder.empty_inv⟩⟩

/-- R171: RX.RST writes the decoder and CRC.CLR `crc_acc`, and together they write what RESET writes. -/
theorem exec_rxRst_crcClr_eq_reset {s t u v : State} (hrst : exec .rxRst s = .next t) (hclr : exec .crcClr t = .next u)
    (hreset : exec .reset s = .next v) : u = v := by
  cases hrst
  cases hclr
  cases hreset
  rfl

/-- Settles O4: an operation that reads an unspecified register faults (log 7, log 8), and those that read none answer a next state
whatever the registers hold. -/
theorem onlyReadersStopBeforeFirstReset : Obligations.OnlyReadersStopBeforeFirstReset := by
  refine ⟨fun s hdec => ⟨fun b => ?_, fun q => ?_, ?_⟩, fun s hcrc => ⟨fun b => ?_, ?_, fun c => ?_⟩,
    fun s => ⟨⟨_, exec_reset s⟩, ⟨_, exec_rxRst s⟩, ⟨_, exec_crcClr s⟩, fun a q => ⟨_, exec_txEnc s a q⟩,
      fun q => ⟨_, exec_decode s q⟩⟩,
    fun _ _ _ _ => exec_rxRst_crcClr_eq_reset⟩
  · exact (exec_rxByte s b).trans (receiving_unspecified s _ hdec)
  · exact (exec_rxPush s q).trans (receiving_unspecified s _ hdec)
  · exact (exec_rxFlush s).trans (receiving_unspecified s _ hdec)
  · exact (exec_crcUpd s b).trans (readingCrc_unspecified s _ hcrc)
  · exact (exec_crcGet s).trans (readingCrc_unspecified s _ hcrc)
  · exact (exec_crcChk s c).trans (readingCrc_unspecified s _ hcrc)

end Sys2Proof.Machine
